-- ==== Sys2Proof/Word.lean ====
section
/-! DEFINITION. The value types of MUXDISP: bytes, glyphs, character codes, command words, and the
type of the display state buffer. -/

namespace Sys2Proof

/-- An 8-bit value. -/
abbrev Byte := BitVec 8

/-- A glyph: one bit per segment of one digit position (00_scope.md R8 `GLYPH_BITS`, R17). -/
abbrev Glyph := BitVec 8

/-- An 8-bit character code (00_scope.md R10). -/
abbrev CharCode := BitVec 8

/-- A 32-bit command word (00_scope.md R10, 30_encoding.md R81). -/
abbrev CommandWord := BitVec 32

/-- The type of `BUF`: the four bytes `BUF[0]` to `BUF[3]` (10_state.md R36). -/
abbrev Buffer := Vector Byte 4

/-- The blank glyph, "all segments off" (00_scope.md R17). -/
def blankGlyph : Glyph := 0x00#8

end Sys2Proof
end

