-- ==== Sys2Proof/Config.lean ====
section
/-! DEFINITION. What an implementation fixes: the structural parameters of 00_scope.md R8, and the
type of the open parameters of R9, with the constraints the spec puts on them. The reference values
stand in Machine/ResetValues.lean. -/

namespace Sys2Proof.Config

/-- `N_DIGITS` (R8): digit positions. -/
abbrev nDigits : Nat := 3

/-- `GLYPH_BITS` (R8): bits of a glyph. -/
abbrev glyphBits : Nat := 8

/-- `N_BUF` (R8): bytes of the display state buffer. -/
abbrev nBuf : Nat := 4

/-- `SLICE_BITS` (R8): bits of one digit in one buffer byte. -/
abbrev sliceBits : Nat := 2

/-- `N_PHASE` (R8): phases of one frame. -/
abbrev nPhase : Nat := 8

/-- `N_SEL` (R8): select lines. -/
abbrev nSel : Nat := 4

/-- `N_BALLAST` (R8): ballast lines. -/
abbrev nBallast : Nat := 1

/-- `N_BP` (R8): backplane lines. -/
abbrev nBp : Nat := 6

/-- `NUM_MIN` (R8): the least value `SETN` shows. -/
abbrev numMin : Int := -99

/-- `NUM_MAX` (R8): the greatest value `SETN` shows. -/
abbrev numMax : Int := 999

/-- `STR_LEN` (R8): characters of a string operand. -/
abbrev strLen : Nat := 3

/-- `ALPHA_GLYPH` of the machine after reset: a FREE VALUE, constrained by nothing. The spec leaves the
letters' glyphs open and gives no reference value (40_glyph_table.md R105, decision D11).
DESIGN CHOICE, safe: nothing can be proved of its entries (log entry 4). -/
opaque alphaGlyph : Vector Glyph 26

end Sys2Proof.Config

namespace Sys2Proof

/-- The eight segments of a digit position (00_scope.md R17). -/
inductive Segment where
  | a | b | c | d | e | f | g
  | dp
deriving DecidableEq, Repr

/-- A segment's place in the order A, B, C, D, E, F, G, DP of 00_scope.md R9. -/
def Segment.index : Segment → Fin 8
  | .a => 0
  | .b => 1
  | .c => 2
  | .d => 3
  | .e => 4
  | .f => 5
  | .g => 6
  | .dp => 7

/-- `SEL_EVEN_POLICY` (00_scope.md R9, 42_driver.md R156). -/
inductive SelEvenPolicy where
  /-- All five lines of the select group complement the odd phase's. -/
  | complement
  /-- Only the ballast line is asserted. -/
  | ballastOnly
deriving DecidableEq, Repr

/-- The open parameters of 00_scope.md R9, which "a model takes as arguments". They are constants of
a machine: no operation writes them (10_state.md R46). -/
structure Params where
  /-- `SEG_BIT`: the glyph bit of each segment, in the order of `Segment.index`. -/
  segBit : Vector (Fin 8) 8
  /-- `DIGIT_GLYPH[0..9]`. -/
  digitGlyph : Vector Glyph 10
  /-- `ALPHA_GLYPH[0..25]`. -/
  alphaGlyph : Vector Glyph 26
  /-- `DASH_GLYPH`. -/
  dashGlyph : Glyph
  /-- `SEL_EVEN_POLICY`. -/
  selEvenPolicy : SelEvenPolicy
  /-- `BUF_RESET`. -/
  bufReset : Buffer
deriving DecidableEq, Repr

/-- The bit number `SEG_BIT(s)` (40_glyph_table.md R100). -/
def segBitOf (p : Params) (s : Segment) : Fin 8 :=
  p.segBit.get s.index

/-- Whether glyph `g` lights segment `s`: "Bit `SEG_BIT(s)` of g is 1 exactly when segment s is lit"
(40_glyph_table.md R100). -/
def lit (p : Params) (g : Glyph) (s : Segment) : Bool :=
  g.getLsbD (segBitOf p s)

/-- The digits whose glyph lights segment G (40_glyph_table.md R103). -/
def middleBarDigits : List (Fin 10) := [2, 3, 4, 5, 6, 8, 9]

/-- The constraints the spec puts on the parameters: `SEG_BIT` is a bijection (40_glyph_table.md
R100), and segment G is lit in exactly the digits R103 lists. The other parameters are free.
DEDUCED, safe: a predicate, so states that break it are covered too (log entry 26). -/
abbrev Params.Legal (p : Params) : Prop :=
  p.segBit.toList.Nodup ∧
    ∀ d : Fin 10, lit p (p.digitGlyph.get d) .g = decide (d ∈ middleBarDigits)

end Sys2Proof
end

