-- ==== Sys2Proof/Syntax.lean ====
section
/-! DEFINITION. The operations of MUXDISP (00_scope.md R2), the events of its two input ports
(30_encoding.md R80), and the reason a word can be refused for (30_encoding.md R86). -/

namespace Sys2Proof

/-- The four operations of MUXDISP, one constructor per row of spec/opcode_table.json. -/
inductive Instr where
  /-- `ADVANCE`: one multiplex step, performed by a tick (42_driver.md R157). -/
  | advance
  /-- `SETG g1, g2, g3`: set three glyphs, `g1` the leftmost (41_encoder.md R122). -/
  | setg (g1 g2 g3 : Glyph)
  /-- `SETN v`: set a numeric value (41_encoder.md R130); the word holds 24 bits of it. -/
  | setn (v : Int)
  /-- `SETS c1, c2, c3`: set a string of at most three characters (41_encoder.md R134). -/
  | sets (c1 c2 c3 : CharCode)
deriving DecidableEq, Repr

/-- One event on an input port (30_encoding.md R80). -/
inductive Event where
  /-- One strobe of the tick port, from the tick agent. -/
  | tick
  /-- One word on the command port, from the writer agent. -/
  | command (w : CommandWord)
deriving DecidableEq, Repr

/-- The argument of the spec's `refuse(reason)` (00_scope.md R14). -/
inductive RefuseReason where
  /-- `RESERVED_OPCODE`: a command word whose `OP` is reserved (30_encoding.md R86). -/
  | reservedOpcode
deriving DecidableEq, Repr

end Sys2Proof
end

