-- ==== Sys2Proof/Machine/ResetValues.lean ====
section
/-! DEFINITION. The reference values of the open parameters (00_scope.md R9) and the reset value of
every item of state (10_state.md R30). -/

namespace Sys2Proof.Machine

/-- Reference `SEG_BIT`: A..G are bits 0..6, DP is bit 7 (40_glyph_table.md R100). -/
def referenceSegBit : Vector (Fin 8) 8 := #v[0, 1, 2, 3, 4, 5, 6, 7]

/-- Reference `DIGIT_GLYPH` (40_glyph_table.md R104). -/
def referenceDigitGlyph : Vector Glyph 10 :=
  #v[0x3F#8, 0x06#8, 0x5B#8, 0x4F#8, 0x66#8, 0x6D#8, 0x7D#8, 0x07#8, 0x7F#8, 0x6F#8]

/-- Reference `DASH_GLYPH`: segment G alone (40_glyph_table.md R107). -/
def referenceDashGlyph : Glyph := 0x40#8

/-- Reference `SEL_EVEN_POLICY` (42_driver.md R156). -/
def referencePolicy : SelEvenPolicy := .complement

/-- Reference `BUF_RESET` (10_state.md R37). -/
def referenceBufReset : Buffer := #v[0x00#8, 0x00#8, 0x00#8, 0x00#8]

/-- The reference parameters of 00_scope.md R9. UNVERIFIED (the spec's own decisions D5, D7, D9, D10,
D12), unsafe if taken as the display's. `ALPHA_GLYPH` has no reference value and is free
(log entries 4 and 5). -/
def referenceParams : Params where
  segBit := referenceSegBit
  digitGlyph := referenceDigitGlyph
  alphaGlyph := Config.alphaGlyph
  dashGlyph := referenceDashGlyph
  selEvenPolicy := referencePolicy
  bufReset := referenceBufReset

/-- `PHASE` at reset: "initial state 0" (10_state.md R34). -/
def resetPhase : BitVec 3 := 0

/-- `BUF` at reset: `BUF_RESET` (10_state.md R37). -/
def resetBuf (p : Params) : Buffer := p.bufReset

/-- `BP_OUT` at reset (10_state.md R40). -/
def resetBpOut : BitVec 6 := 0b000000#6

/-- `BP_DIR` at reset: all lines undriven (10_state.md R41). -/
def resetBpDir : BitVec 6 := 0b000000#6

/-- `SEL_OUT` at reset (10_state.md R42). -/
def resetSelOut : BitVec 5 := 0b00000#5

/-- `SEL_DIR` at reset: all lines undriven (10_state.md R43). -/
def resetSelDir : BitVec 5 := 0b00000#5

end Sys2Proof.Machine
end

