-- ==== Sys2Proof/Machine/State.lean ====
section
/-! DEFINITION. The state of MUXDISP, the reasons a step could stop, and the state after reset. -/

namespace Sys2Proof.Machine

/-- The reasons the machine can stop with a fault: NONE. "MUXDISP has no exceptions, no cause codes
and no error outputs" (60_exceptions.md R180), and no operation faults (R181, 42_driver.md R163). -/
inductive Fault
deriving DecidableEq, Repr

/-- The reasons an instruction can be refused. -/
inductive Refusal where
  /-- Raised by an arm of `exec` whose instruction has no meaning yet; no arm does. Safe: a run
  stops where the hardware would go on. A reserved command word is not refused here: it is the
  spec's own `refuse`, which sets the mark `State.refusal` (60_exceptions.md R182). -/
  | notModelled (mnemonic : String)
deriving DecidableEq, Repr

/-- The six items of 10_state.md R30, the refusal mark of 60_exceptions.md R182, and two fields of
the model's own: the events still to be performed and the machine's parameters. -/
structure State where
  /-- `PHASE`, 3 bits (R34). -/
  phase : BitVec 3
  /-- `BUF[0..3]` (R36). -/
  buf : Buffer
  /-- `BP_OUT`, 6 bits: bit i is backplane line i (R40). -/
  bpOut : BitVec 6
  /-- `BP_DIR`, 6 bits: bit i = 1 makes backplane line i an output (R41). -/
  bpDir : BitVec 6
  /-- `SEL_OUT`, 5 bits: `SEL` in 3:0, `BAL` in 4 (R42). -/
  selOut : BitVec 5
  /-- `SEL_DIR`, 5 bits, laid out as `SEL_OUT` (R43). -/
  selDir : BitVec 5
  /-- The refusal mark and the reason recorded with it (60_exceptions.md R182, 00_scope.md R14);
  `none` is "mark clear". -/
  refusal : Option RefuseReason
  /-- THE MODEL'S OWN: the events of the tick and writer agents not yet performed, in the one total
  order of 20_memory.md R66. It belongs to the environment, not to MUXDISP. DESIGN CHOICE, safe (log
  entry 1). -/
  inputs : List Event
  /-- THE MODEL'S OWN: the open parameters, constants of the machine that no operation writes
  (00_scope.md R9, 10_state.md R46). DESIGN CHOICE, safe: a statement about every state holds for
  every choice of them (log entry 3). -/
  params : Params
deriving DecidableEq, Repr

/-- The state after power-on reset of a machine with parameters `p` (70_reset_and_hazards.md
R200). -/
def State.resetWith (p : Params) : State where
  phase := resetPhase
  buf := resetBuf p
  bpOut := resetBpOut
  bpDir := resetBpDir
  selOut := resetSelOut
  selDir := resetSelDir
  refusal := none
  inputs := []
  params := p

/-- The state after power-on reset under the reference parameters of 00_scope.md R9. DESIGN CHOICE,
unsafe where a claim about `State.reset` leans on a reference value (log entry 5). -/
def State.reset : State := State.resetWith referenceParams

end Sys2Proof.Machine
end

