-- ==== Sys2Proof/Machine/Flags.lean ====
section
/-! DEFINITION. MUXDISP has no stored flags (10_state.md R33): the two quantities the spec derives
from the phase are functions of `PHASE`. -/

namespace Sys2Proof.Machine

/-- `select = PHASE >> 1`, 2 bits: the active select line and the buffer byte driven (10_state.md
R33). -/
def select (p : BitVec 3) : BitVec 2 := (p >>> 1).setWidth 2

/-- `polarity = PHASE & 1`, 1 bit: 1 on an odd phase, data driven normal; 0 on an even phase, data
driven inverted (10_state.md R33). -/
def polarity (p : BitVec 3) : BitVec 1 := (p &&& 1#3).setWidth 1

end Sys2Proof.Machine
end

