-- ==== Sys2Proof/Machine/Operands.lean ====
section
/-! DEFINITION. From a command's operands to three glyphs: the glyph table (40_glyph_table.md), the
digit decomposition and `numeric_glyphs` (41_encoder.md R124, R125), and `string_glyphs` (R133). -/

namespace Sys2Proof.Machine

/-- The glyphs of the three digit positions, `g1` the leftmost. -/
structure GlyphTriple where
  g1 : Glyph
  g2 : Glyph
  g3 : Glyph
deriving DecidableEq, Repr

/-- `glyph_for(c)` (40_glyph_table.md R101): digits and letters, upper or lower case, have table
entries; every other code is blank. -/
def glyphFor (p : Params) (c : CharCode) : Glyph :=
  if hd : 0x30 ≤ c.toNat ∧ c.toNat ≤ 0x39 then p.digitGlyph[c.toNat - 0x30]
  else if hu : 0x41 ≤ c.toNat ∧ c.toNat ≤ 0x5A then p.alphaGlyph[c.toNat - 0x41]
  else if hl : 0x61 ≤ c.toNat ∧ c.toNat ≤ 0x7A then p.alphaGlyph[c.toNat - 0x61]
  else blankGlyph

/-- The decimal digits of a number up to 999. -/
structure Digits where
  /-- hundreds -/
  h : Fin 10
  /-- tens -/
  t : Fin 10
  /-- units -/
  u : Fin 10
deriving DecidableEq, Repr

/-- The hundreds, tens and units of `m` (41_encoder.md R124). -/
def decompose (m : Nat) (hm : m ≤ 999) : Digits where
  h := ⟨m / 100, by omega⟩
  t := ⟨m / 10 % 10, by omega⟩
  u := ⟨m % 10, by omega⟩

/-- The glyphs of a value in range (41_encoder.md R125 after its range test): a dash in place of the
hundreds of a negative value (R128), leading zeros blank (R127), the units always shown. -/
def inRangeGlyphs (p : Params) (neg : Bool) (d : Digits) : GlyphTriple where
  g1 :=
    if neg then p.dashGlyph
    else if d.h ≠ 0 then p.digitGlyph.get d.h
    else blankGlyph
  g2 := if d.h ≠ 0 ∨ d.t ≠ 0 then p.digitGlyph.get d.t else blankGlyph
  g3 := p.digitGlyph.get d.u

/-- A value that passes the range test has a magnitude of at most 999, so it decomposes. -/
theorem natAbs_le_of_inRange {v : Int} (hr : ¬(v > Config.numMax ∨ v < Config.numMin)) :
    v.natAbs ≤ 999 := by
  simp only [Config.numMax, Config.numMin] at hr
  omega

/-- `numeric_glyphs(v)` (41_encoder.md R125); out of range, three dashes (R129). -/
def numericGlyphs (p : Params) (v : Int) : GlyphTriple :=
  if hr : v > Config.numMax ∨ v < Config.numMin then ⟨p.dashGlyph, p.dashGlyph, p.dashGlyph⟩
  else inRangeGlyphs p (decide (v < 0)) (decompose v.natAbs (natAbs_le_of_inRange hr))

/-- `string_glyphs(c1, c2, c3)` (41_encoder.md R133): left-justified; the first 0x00 ends the
string, and it and every later position are absent, which is blank. -/
def stringGlyphs (p : Params) (c1 c2 c3 : CharCode) : GlyphTriple :=
  let e1 : Bool := c1 = 0x00#8
  let e2 : Bool := e1 || c2 = 0x00#8
  let e3 : Bool := e2 || c3 = 0x00#8
  { g1 := if e1 then blankGlyph else glyphFor p c1
    g2 := if e2 then blankGlyph else glyphFor p c2
    g3 := if e3 then blankGlyph else glyphFor p c3 }

end Sys2Proof.Machine
end

