-- ==== Sys2Proof/Machine/Ops.lean ====
section
/-! DEFINITION. The shared operations: packing and the buffer write (41_encoder.md R120), the output
logic `drive` (42_driver.md R152, R156), the register writes, and the spec's `refuse`
(60_exceptions.md R182). MUXDISP has no memory (10_state.md R45), takes no trap and returns from
none (60_exceptions.md R187, R188), so there is no such operation here. -/

namespace Sys2Proof.Machine

/-- Slice `k` of glyph `g`: bits 2k+1:2k (00_scope.md R17). -/
def slice (g : Glyph) (k : Nat) : BitVec 2 := g.extractLsb' (2 * k) 2

/-- Byte `k` of a packed buffer: bits 7:6 are 0 and the slices of glyphs 1, 2, 3 stand at offsets 4,
2, 0 (41_encoder.md R120). -/
def packByte (t : GlyphTriple) (k : Nat) : Byte :=
  0b00#2 ++ slice t.g1 k ++ slice t.g2 k ++ slice t.g3 k

/-- `pack(g1, g2, g3)` (41_encoder.md R120). -/
def pack (t : GlyphTriple) : Buffer :=
  #v[packByte t 0, packByte t 1, packByte t 2, packByte t 3]

/-- The glyph whose slice `k` stands at bit `off` of byte `k`, for each `k`. -/
def gather (b : Buffer) (off : Nat) : Glyph :=
  b[3].extractLsb' off 2 ++ b[2].extractLsb' off 2 ++
    b[1].extractLsb' off 2 ++ b[0].extractLsb' off 2

/-- `unpack` (41_encoder.md R121): "a law for testing, not an operation MUXDISP performs". -/
def unpack (b : Buffer) : GlyphTriple where
  g1 := gather b 4
  g2 := gather b 2
  g3 := gather b 0

/-- `BUF[s]`: the one byte `ADVANCE` reads (20_memory.md R62). Reading has no side effect (R64). -/
def readBuf (b : Buffer) (s : BitVec 2) : Byte := b.get s.toFin

/-- The values `drive` gives the four GPIO registers. -/
structure Outputs where
  /-- for `BP_OUT` -/
  bp : BitVec 6
  /-- for `BP_DIR` -/
  bpDir : BitVec 6
  /-- for `SEL_OUT` -/
  sel : BitVec 5
  /-- for `SEL_DIR` -/
  selDir : BitVec 5
deriving DecidableEq, Repr

/-- `1 << s`, 4 bits: the select bit of select line `s` (42_driver.md R152). -/
def selectBit (s : BitVec 2) : BitVec 4 := 1#4 <<< s.toNat

/-- The five select-group lines on an odd phase: only the select bit asserted, ballast deasserted
(42_driver.md R154). -/
def oddSel (s : BitVec 2) : BitVec 5 := 0b0#1 ++ selectBit s

/-- `even_sel(s)`, the five select-group lines on an even phase (42_driver.md R156). -/
def evenSel (policy : SelEvenPolicy) (s : BitVec 2) : BitVec 5 :=
  match policy with
  | .complement => 0b1#1 ++ ~~~(selectBit s)
  | .ballastOnly => 0b1#1 ++ 0b0000#4

/-- `drive(p, BUF)` (42_driver.md R152): the buffer byte of the selected group, normal on an odd
phase and inverted on an even one, the select group, and all lines outputs. -/
def drive (policy : SelEvenPolicy) (p : BitVec 3) (b : Buffer) : Outputs :=
  let s := select p
  let d := readBuf b s
  if polarity p = 1#1 then
    { bp := d.extractLsb' 0 6, bpDir := 0b111111#6, sel := oddSel s, selDir := 0b11111#5 }
  else
    { bp := (~~~d).extractLsb' 0 6, bpDir := 0b111111#6, sel := evenSel policy s,
      selDir := 0b11111#5 }

/-- The phase after `p`: `(p + 1) mod 8` (42_driver.md R151). -/
def nextPhase (p : BitVec 3) : BitVec 3 := p + 1#3

/-- `BUF <- b`: one atomic write of all four bytes (20_memory.md R63). -/
def writeBuf (b : Buffer) (s : State) : State := { s with buf := b }

/-- The four GPIO registers take the values of `o` together (20_memory.md R69). -/
def writeOutputs (o : Outputs) (s : State) : State :=
  { s with bpOut := o.bp, bpDir := o.bpDir, selOut := o.sel, selDir := o.selDir }

/-- `PHASE <- p`. -/
def writePhase (p : BitVec 3) (s : State) : State := { s with phase := p }

/-- The events that remain to be performed become `es`. -/
def setInputs (es : List Event) (s : State) : State := { s with inputs := es }

/-- `refuse(r)` (60_exceptions.md R182): no state of 10_state.md changes, the refusal mark is set,
and nothing clears it. DESIGN CHOICE, unsafe if a claim is made of a run in which the mark is set (log
entry 8). -/
def refuse (r : RefuseReason) (s : State) : State := { s with refusal := some r }

end Sys2Proof.Machine
end

