-- ==== Sys2Proof/Machine/Driver.lean ====
section
/-! DEFINITION. The multiplex driver's one operation, `ADVANCE` (42_driver.md R157). -/

namespace Sys2Proof.Machine

/-- `ADVANCE` (42_driver.md R157): the outputs come from the phase before advancing (R158), and all
five writes take effect together (20_memory.md R69). -/
def execAdvance (s : State) : Host.Outcome State Fault Refusal :=
  .next (writePhase (nextPhase s.phase)
    (writeOutputs (drive s.params.selEvenPolicy s.phase s.buf) s))

end Sys2Proof.Machine
end

