-- ==== Sys2Proof/Machine/Encoder.lean ====
section
/-! DEFINITION. The display state encoder's three commands (41_encoder.md): each replaces the whole
of `BUF` and writes nothing else (R136, R137). -/

namespace Sys2Proof.Machine

/-- `SETG g1, g2, g3` (41_encoder.md R122). -/
def execSetg (g1 g2 g3 : Glyph) (s : State) : Host.Outcome State Fault Refusal :=
  .next (writeBuf (pack ⟨g1, g2, g3⟩) s)

/-- `SETN v` (41_encoder.md R130). -/
def execSetn (v : Int) (s : State) : Host.Outcome State Fault Refusal :=
  .next (writeBuf (pack (numericGlyphs s.params v)) s)

/-- `SETS c1, c2, c3` (41_encoder.md R134). -/
def execSets (c1 c2 c3 : CharCode) (s : State) : Host.Outcome State Fault Refusal :=
  .next (writeBuf (pack (stringGlyphs s.params c1 c2 c3)) s)

end Sys2Proof.Machine
end

