-- ==== Sys2Proof/Machine/Dispatch.lean ====
section
/-! DEFINITION. The one dispatch from an operation to its meaning. -/

namespace Sys2Proof.Machine

/-- The meaning of one operation. -/
def exec (i : Instr) (s : State) : Host.Outcome State Fault Refusal :=
  match i with
  | .advance => Sys2Proof.Machine.execAdvance s
  | .setg g1 g2 g3 => Sys2Proof.Machine.execSetg g1 g2 g3 s
  | .setn v => Sys2Proof.Machine.execSetn v s
  | .sets c1 c2 c3 => Sys2Proof.Machine.execSets c1 c2 c3 s

end Sys2Proof.Machine
end

