-- ==== Sys2Proof/WellFormed.lean ====
section
/-! DEFINITION. Which operands an operation can have: the ranges of 30_encoding.md R82, R83, R88.
Glyph and character operands are 8-bit values by their type ("Every value of every field is
legal", R82), so the one check is the range of `SETN`'s integer. -/

namespace Sys2Proof

/-- The least operand of `SETN` (30_encoding.md R83). -/
abbrev setnMin : Int := -8388608

/-- The greatest operand of `SETN` (30_encoding.md R83). -/
abbrev setnMax : Int := 8388607

/-- The operands are ones a port can deliver. -/
def Instr.wellFormed (i : Instr) : Bool :=
  match i with
  | .advance => true
  | .setg _ _ _ => true
  | .setn v => decide (setnMin ≤ v ∧ v ≤ setnMax)
  | .sets _ _ _ => true

end Sys2Proof
end

