-- ==== Sys2Proof/Decode.lean ====
section
/-! DEFINITION. The command word's fields, the decoder, the encoder, and the numbering of the
opcode table's words (30_encoding.md R80 to R87). -/

namespace Sys2Proof

/-- `OP`, bits 31:24 of a command word (30_encoding.md R81). -/
def fieldOp (w : CommandWord) : BitVec 8 := w.extractLsb' 24 8

/-- Field `A`, bits 23:16, of format G (30_encoding.md R82). -/
def fieldA (w : CommandWord) : BitVec 8 := w.extractLsb' 16 8

/-- Field `B`, bits 15:8, of format G (30_encoding.md R82). -/
def fieldB (w : CommandWord) : BitVec 8 := w.extractLsb' 8 8

/-- Field `C`, bits 7:0, of format G (30_encoding.md R82). -/
def fieldC (w : CommandWord) : BitVec 8 := w.extractLsb' 0 8

/-- Field `IMM24`, bits 23:0, of format N (30_encoding.md R83). -/
def fieldImm24 (w : CommandWord) : BitVec 24 := w.extractLsb' 0 24

/-- `OP` of `SETG` (30_encoding.md R84). -/
def opSetg : BitVec 8 := 0x01#8

/-- `OP` of `SETN` (30_encoding.md R84). -/
def opSetn : BitVec 8 := 0x02#8

/-- `OP` of `SETS` (30_encoding.md R84). -/
def opSets : BitVec 8 := 0x03#8

/-- The decoder of the command port (30_encoding.md R84): it reads `OP` only to know what a word is,
and every `OP` but three is reserved (R86). `SETN`'s operand is `sint(W[23:0])` (R83). -/
def decodeWord (w : CommandWord) : Except RefuseReason Instr :=
  if fieldOp w = opSetg then .ok (.setg (fieldA w) (fieldB w) (fieldC w))
  else if fieldOp w = opSetn then .ok (.setn (fieldImm24 w).toInt)
  else if fieldOp w = opSets then .ok (.sets (fieldA w) (fieldB w) (fieldC w))
  else .error .reservedOpcode

/-- What an event asks for: a tick is one `ADVANCE` and carries no operand; a command word is
decoded (30_encoding.md R80). -/
def decode : Event → Except RefuseReason Instr
  | .tick => .ok .advance
  | .command w => decodeWord w

/-- The event that delivers an operation: the functions `enc_SETG`, `enc_SETN`, `enc_SETS` of
30_encoding.md R85, and the strobe for `ADVANCE`, which has no command word. -/
def encode : Instr → Event
  | .advance => .tick
  | .setg g1 g2 g3 => .command (opSetg ++ g1 ++ g2 ++ g3)
  | .setn v => .command (opSetn ++ BitVec.ofInt 24 v)
  | .sets c1 c2 c3 => .command (opSets ++ c1 ++ c2 ++ c3)

/-- The event that bits `w`, `nbits` of them, stand for in spec/opcode_table.json, where `ADVANCE`'s
row is one bit wide and the others 32. Up to one byte of bits is the tick port's, whose one bit is
bit 0: 1 is a strobe, 0 is no event. More bits are a word on the command port. DESIGN CHOICE, safe: it
numbers words for `decodeTableWord` and `withFetchWord` only (log entry 12). -/
def portEvent (nbits w : Nat) : Option Event :=
  if nbits ≤ 8 then
    if w.testBit 0 then some .tick else none
  else some (.command (BitVec.ofNat 32 w))

/-- The instruction the decoder reads from bits numbered as spec/opcode_table.json numbers them. -/
def decodeTableWord (nbits w : Nat) : Option Instr :=
  match portEvent nbits w with
  | none => none
  | some e =>
    match decode e with
    | .ok i => some i
    | .error _ => none

end Sys2Proof
end

