-- ==== Sys2Proof/Machine/Fetch.lean ====
section
/-! DEFINITION. How the machine comes by its next event. MUXDISP fetches no instructions
(10_state.md R31): it performs the events its two ports deliver, one at a time, in one total order
(20_memory.md R66). -/

namespace Sys2Proof.Machine

/-- The next event to perform, and the state in which it is performed (the event taken off the
environment's sequence). `none` where no agent acts. -/
def takeEvent (s : State) : Option (Event × State) :=
  match s.inputs with
  | [] => none
  | e :: es => some (e, setInputs es s)

/-- What a step does where no event is pending: nothing, since MUXDISP "only reacts to events"
(00_scope.md R6). DESIGN CHOICE, safe (log entry 2). -/
def idle (s : State) : State := s

/-- The event that bits `w` of the opcode table stand for is delivered next, before those already
pending. DESIGN CHOICE, safe (log entries 1 and 12). -/
def deliverWord (s : State) (nbits w : Nat) : State :=
  match portEvent nbits w with
  | none => s
  | some e => setInputs (e :: s.inputs) s

end Sys2Proof.Machine
end

