-- ==== Sys2Proof/Machine/Step.lean ====
section
/-! DEFINITION. One step: the next event is performed as one atomic operation (20_memory.md R66). -/

namespace Sys2Proof.Machine

/-- One step. A tick performs `ADVANCE`, a command word performs what it decodes to, a reserved word
is performed as `refuse(RESERVED_OPCODE)` (30_encoding.md R80, R86). -/
def step (s : State) : Host.Outcome State Fault Refusal :=
  match takeEvent s with
  | none => .next (idle s)
  | some (e, s1) =>
    match Sys2Proof.decode e with
    | .ok i => exec i s1
    | .error r => .next (refuse r s1)

/-- `s` with the instruction of bits `w` delivered as the next event. -/
def State.withFetchWord (s : State) (nbits w : Nat) : State := deliverWord s nbits w

end Sys2Proof.Machine
end

