-- ==== Sys2Proof/Machine/Assembler.lean ====
section
/-! DEFINITION. The assembler of 30_encoding.md R88 and R89: from source text to the events it stands
for. What the spec does not say of the text's form is a DESIGN CHOICE, unsafe for claims about text
alone (log entry 20). -/

namespace Sys2Proof.Machine

/-- One line's operation, with its operands as written (30_encoding.md R88, R89). -/
inductive AsmOp where
  /-- `TICK` -/
  | tick
  /-- `SETG g1, g2, g3` -/
  | setg (g1 g2 g3 : Int)
  /-- `SETN v` -/
  | setn (v : Int)
  /-- `SETS c1, c2, c3` -/
  | sets (c1 c2 c3 : Int)
  /-- `SETS "text"`, a pseudo-instruction -/
  | setsText (text : List Char)
  /-- `BLANK`, a pseudo-instruction -/
  | blank
  /-- `TICKS n`, a pseudo-instruction -/
  | ticks (n : Int)
  /-- `FRAME`, a pseudo-instruction -/
  | frame
deriving DecidableEq, Repr

/-! ## From an operation to its events -/

/-- A byte operand: "each operand an integer 0..255", any other "is an assembly error" (R88). -/
def byteOperand (v : Int) : Option Byte :=
  if 0 ≤ v ∧ v ≤ 255 then some (BitVec.ofInt 8 v) else none

/-- The ASCII code of a character (R88, R89); an assembly error where it has none (log entry 20). -/
def asciiCode (c : Char) : Option Int :=
  if c.toNat < 128 then some c.toNat else none

/-- The ASCII code of the character at position `i` of a text, 0x00 where the text does not reach it
(R89). -/
def textCode (text : List Char) (i : Nat) : Option Int :=
  match text[i]? with
  | none => some 0
  | some c => asciiCode c

/-- The event of an operation with its operands in range; `none` is an assembly error (R88). -/
def assembleInstr (i : Instr) : Option (List Event) :=
  if i.wellFormed then some [encode i] else none

/-- `SETS c1, c2, c3` with the operands as written (R88). -/
def assembleSets (c1 c2 c3 : Int) : Option (List Event) :=
  match byteOperand c1, byteOperand c2, byteOperand c3 with
  | some b1, some b2, some b3 => assembleInstr (.sets b1 b2 b3)
  | _, _, _ => none

/-- `TICKS n`: n strobes, n >= 0 (R89). That a negative n is an assembly error is a DESIGN CHOICE, unsafe
for claims about text alone (log entry 20). -/
def assembleTicks (n : Int) : Option (List Event) :=
  if 0 ≤ n then some (List.replicate n.toNat .tick) else none

/-- The events of one operation, pseudo-instructions expanded; `none` is an assembly error (R88,
R89). -/
def assembleOp : AsmOp → Option (List Event)
  | .tick => assembleInstr .advance
  | .setg g1 g2 g3 =>
    match byteOperand g1, byteOperand g2, byteOperand g3 with
    | some b1, some b2, some b3 => assembleInstr (.setg b1 b2 b3)
    | _, _, _ => none
  | .setn v => assembleInstr (.setn v)
  | .sets c1 c2 c3 => assembleSets c1 c2 c3
  | .setsText text =>
    match textCode text 0, textCode text 1, textCode text 2 with
    | some c1, some c2, some c3 => assembleSets c1 c2 c3
    | _, _, _ => none
  | .blank => assembleInstr (.setg 0x00#8 0x00#8 0x00#8)
  | .ticks n => assembleTicks n
  | .frame => assembleTicks Config.nPhase

/-! ## From text to an operation -/

/-- Blank space within a line (log entry 20). -/
def isBlank (c : Char) : Bool := c = ' ' || c = '\t' || c = '\r'

/-- The text after any blank space. -/
def skipBlanks (cs : List Char) : List Char := cs.dropWhile isBlank

/-- Nothing but blank space or a comment is left: "`;` starting a comment" (R88). -/
def lineEnds (cs : List Char) : Bool :=
  match skipBlanks cs with
  | [] => true
  | c :: _ => c = ';'

/-- The value of a digit of the given base (10 or 16). -/
def digitValue (base : Nat) (c : Char) : Option Nat :=
  let v :=
    if '0' ≤ c ∧ c ≤ '9' then c.toNat - '0'.toNat
    else if 'a' ≤ c ∧ c ≤ 'f' then c.toNat - 'a'.toNat + 10
    else if 'A' ≤ c ∧ c ≤ 'F' then c.toNat - 'A'.toNat + 10
    else base
  if v < base then some v else none

/-- The number that the digits at the head of a text continue from `acc`, and the text after them. -/
def readDigits (base : Nat) : Nat → List Char → Nat × List Char
  | acc, [] => (acc, [])
  | acc, c :: cs =>
    match digitValue base c with
    | none => (acc, c :: cs)
    | some d => readDigits base (acc * base + d) cs

/-- A number of at least one digit. -/
def readNumber (base : Nat) (cs : List Char) : Option (Nat × List Char) :=
  match cs with
  | [] => none
  | c :: rest =>
    match digitValue base c with
    | none => none
    | some d => some (readDigits base d rest)

/-- A number, decimal, or hexadecimal with `0x` (R88). -/
def readUnsigned (cs : List Char) : Option (Nat × List Char) :=
  match cs with
  | '0' :: 'x' :: rest => readNumber 16 rest
  | _ => readNumber 10 cs

/-- An integer: "a leading `-` negates" (R88). -/
def readInteger (cs : List Char) : Option (Int × List Char) :=
  match skipBlanks cs with
  | '-' :: rest => (readUnsigned rest).map fun r => (-(r.1 : Int), r.2)
  | rest => (readUnsigned rest).map fun r => ((r.1 : Int), r.2)

/-- A character operand of `SETS`: an integer, or "a character literal `'x'` meaning its ASCII code"
(R88). -/
def readCharacter (cs : List Char) : Option (Int × List Char) :=
  match skipBlanks cs with
  | '\'' :: c :: '\'' :: rest => (asciiCode c).map fun v => (v, rest)
  | rest => readInteger rest

/-- The text after a comma. -/
def readComma (cs : List Char) : Option (List Char) :=
  match skipBlanks cs with
  | ',' :: rest => some rest
  | _ => none

/-- Three operands with commas between them, each read by `read`, and then the line's end. -/
def readThree (read : List Char → Option (Int × List Char)) (cs : List Char) :
    Option (Int × Int × Int) := do
  let (x, cs) ← read cs
  let cs ← readComma cs
  let (y, cs) ← read cs
  let cs ← readComma cs
  let (z, cs) ← read cs
  if lineEnds cs then some (x, y, z) else none

/-- One integer operand and then the line's end. -/
def readOne (cs : List Char) : Option Int := do
  let (x, cs) ← readInteger cs
  if lineEnds cs then some x else none

/-- The text up to a closing double quote, and what follows the quote. -/
def readQuoted : List Char → Option (List Char × List Char)
  | [] => none
  | '"' :: rest => some ([], rest)
  | c :: rest => (readQuoted rest).map fun r => (c :: r.1, r.2)

/-- The operands of `SETS`: a quoted text or three characters (R88, R89). -/
def readSets (cs : List Char) : Option AsmOp :=
  match skipBlanks cs with
  | '"' :: rest => do
    let (text, cs) ← readQuoted rest
    if lineEnds cs then some (.setsText text) else none
  | rest => (readThree readCharacter rest).map fun r => .sets r.1 r.2.1 r.2.2

/-- The operation of an operand-less mnemonic. -/
def readNone (op : AsmOp) (cs : List Char) : Option AsmOp :=
  if lineEnds cs then some op else none

/-- The operation a mnemonic and the text after it stand for (R88, R89). -/
def readOp (name cs : List Char) : Option AsmOp :=
  if name = ['T', 'I', 'C', 'K'] then readNone .tick cs
  else if name = ['S', 'E', 'T', 'G'] then
    (readThree readInteger cs).map fun r => .setg r.1 r.2.1 r.2.2
  else if name = ['S', 'E', 'T', 'N'] then (readOne cs).map .setn
  else if name = ['S', 'E', 'T', 'S'] then readSets cs
  else if name = ['B', 'L', 'A', 'N', 'K'] then readNone .blank cs
  else if name = ['T', 'I', 'C', 'K', 'S'] then (readOne cs).map .ticks
  else if name = ['F', 'R', 'A', 'M', 'E'] then readNone .frame cs
  else none

/-- The events of one line, "one operation per line" (R88): none for a line that is blank or only a
comment. -/
def assembleLine (cs : List Char) : Option (List Event) :=
  if lineEnds cs then some []
  else
    let cs := skipBlanks cs
    match readOp (cs.takeWhile Char.isAlpha) (cs.dropWhile Char.isAlpha) with
    | none => none
    | some op => assembleOp op

/-- The events of several lines, in order. -/
def assembleLines : List (List Char) → Option (List Event)
  | [] => some []
  | l :: ls =>
    match assembleLine l, assembleLines ls with
    | some es, some rest => some (es ++ rest)
    | _, _ => none

/-- The lines of a text. -/
def splitLines : List Char → List (List Char)
  | [] => [[]]
  | '\n' :: cs => [] :: splitLines cs
  | c :: cs =>
    match splitLines cs with
    | [] => [[c]]
    | l :: ls => (c :: l) :: ls

/-- The events of a program (R88, R89); `none` is an assembly error. -/
def assemble (source : List Char) : Option (List Event) :=
  assembleLines (splitLines source)

/-- The state in which the events of a program are the next to be performed, before those already
pending; no change where the program does not assemble. -/
def deliverProgram (source : List Char) (s : State) : State :=
  match assemble source with
  | none => s
  | some es => setInputs (es ++ s.inputs) s

end Sys2Proof.Machine
end

