-- ==== Sys2Proof/Machine/Pins.lean ====
section
/-! DEFINITION. The 11 output lines of MUXDISP (10_state.md R44): "The pins are the only outputs". -/

namespace Sys2Proof.Machine

/-- What an output line shows (10_state.md R44). -/
inductive Pin where
  /-- The line is not driven. -/
  | undriven
  /-- The line is driven to a logic level; asserted is 1 (00_scope.md R17). -/
  | driven (level : Bool)
deriving DecidableEq, Repr

/-- `bp_pin(i)`, backplane line `i` (10_state.md R44). -/
def bpPin (s : State) (i : Fin 6) : Pin :=
  if s.bpDir.getLsbD i then .driven (s.bpOut.getLsbD i) else .undriven

/-- `sel_pin(i)`, select line `i`, or the ballast line where `i = 4` (10_state.md R44). -/
def selPin (s : State) (i : Fin 5) : Pin :=
  if s.selDir.getLsbD i then .driven (s.selOut.getLsbD i) else .undriven

/-- All 11 pins: the backplane lines 0..5, the select lines 0..3, the ballast line. -/
def pins (s : State) : List Pin :=
  [bpPin s 0, bpPin s 1, bpPin s 2, bpPin s 3, bpPin s 4, bpPin s 5,
    selPin s 0, selPin s 1, selPin s 2, selPin s 3, selPin s 4]

end Sys2Proof.Machine
end

