-- ==== Sys2Proof/Safety.lean ====
section
/-! DEFINITION. The terms claims use: executions and their interleavings (20_memory.md R66 to R68),
which executions a claim may be about (60_exceptions.md R182), and the invariants of the machine. -/

namespace Sys2Proof.Machine

/-- The refusal mark is clear. Nothing may be claimed of an execution in which it is set: "no claim
about an execution containing a reserved word can be proved" (60_exceptions.md R182). -/
abbrev State.Accepted (s : State) : Prop := s.refusal = none

/-- The word's `OP` is assigned (30_encoding.md R84). -/
abbrev Assigned (w : CommandWord) : Prop :=
  fieldOp w = 0x01#8 ∨ fieldOp w = 0x02#8 ∨ fieldOp w = 0x03#8

/-- The event is a tick or a command word with an assigned `OP`. -/
abbrev Served : Event → Prop
  | .tick => True
  | .command w => Assigned w

/-- How many ticks there are among the events. -/
def tickCount : List Event → Nat
  | [] => 0
  | .tick :: es => tickCount es + 1
  | .command _ :: es => tickCount es

/-- `Interleaves n ws es`: the total order `es` is an interleaving of `n` ticks with the writer's
command words `ws`, each agent's own order kept and no event lost, duplicated or merged
(20_memory.md R66, R67). Every such order is an execution (R68). -/
inductive Interleaves : Nat → List CommandWord → List Event → Prop where
  /-- No event is left. -/
  | done : Interleaves 0 [] []
  /-- The next event is a tick. -/
  | tick {n : Nat} {ws : List CommandWord} {es : List Event} :
      Interleaves n ws es → Interleaves (n + 1) ws (.tick :: es)
  /-- The next event is the writer's next command. -/
  | command {n : Nat} {ws : List CommandWord} {es : List Event} (w : CommandWord) :
      Interleaves n ws es → Interleaves n (w :: ws) (.command w :: es)

/-- The machine run over exactly the events `es`, from state `s`: as many steps as events. -/
def runEvents (es : List Event) (s : State) : Host.Outcome State Fault Refusal :=
  Host.Core.run Sys2Proof.core es.length (setInputs es s)

/-- What the select group shows in phase `p`: one select line normal on an odd phase, the even
pattern on an even one (42_driver.md R154, R156). -/
def selPattern (policy : SelEvenPolicy) (p : BitVec 3) : BitVec 5 :=
  if polarity p = 1#1 then oddSel (select p) else evenSel policy (select p)

/-- Bits 7:6 of every buffer byte are 0 (10_state.md R38). -/
abbrev PadClear (b : Buffer) : Prop :=
  ∀ k : Fin 4, (b.get k).extractLsb' 6 2 = 0#2

/-- The directions and the select group are as the reset or the last tick left them: before the first
tick all four GPIO registers are 0, so nothing is driven (70_reset_and_hazards.md R202); after it both
directions are all ones (10_state.md R41, R43) and the select group shows the phase before `PHASE`
(42_driver.md R158). `BP_OUT` is free after the first tick: the byte it shows may since have been
replaced in `BUF`. -/
def OutputsInv (s : State) : Prop :=
  (s.phase = 0 ∧ s.bpOut = 0 ∧ s.bpDir = 0 ∧ s.selOut = 0 ∧ s.selDir = 0) ∨
    (s.bpDir = 0b111111#6 ∧ s.selDir = 0b11111#5 ∧
      s.selOut = selPattern s.params.selEvenPolicy (s.phase - 1))

/-- Two states that differ in bits 7:6 of the buffer bytes at most. -/
def PadEquiv (s t : State) : Prop :=
  (∀ k : Fin 4, (s.buf.get k).extractLsb' 0 6 = (t.buf.get k).extractLsb' 0 6) ∧
    s.phase = t.phase ∧ s.bpOut = t.bpOut ∧ s.bpDir = t.bpDir ∧ s.selOut = t.selOut ∧
    s.selDir = t.selDir ∧ s.refusal = t.refusal ∧ s.inputs = t.inputs ∧ s.params = t.params

/-- Two states whose drive side is equal: everything `ADVANCE` shows but for the buffer's data. -/
def DriveEquiv (s t : State) : Prop :=
  s.phase = t.phase ∧ s.bpDir = t.bpDir ∧ s.selOut = t.selOut ∧ s.selDir = t.selDir ∧
    s.params = t.params

/-- The buffer that the word `w` leaves where `b` was: a command replaces it as a whole
(41_encoder.md R136), a reserved word leaves it. -/
def bufferAfterWord (p : Params) (b : Buffer) (w : CommandWord) : Buffer :=
  match decodeWord w with
  | .ok (.setg g1 g2 g3) => pack ⟨g1, g2, g3⟩
  | .ok (.setn v) => pack (numericGlyphs p v)
  | .ok (.sets c1 c2 c3) => pack (stringGlyphs p c1 c2 c3)
  | .ok .advance => b
  | .error _ => b

/-- The buffer after the writer's words `ws`. -/
def bufferAfterWords (p : Params) : Buffer → List CommandWord → Buffer
  | b, [] => b
  | b, w :: ws => bufferAfterWords p (bufferAfterWord p b w) ws

end Sys2Proof.Machine
end

