-- ==== Sys2Proof/Certificates/Slice0/Obligations.lean ====
section
/-! DEFINITION. The statements for the provers, from the rules of spec/. Each docstring names the rule
or section it formalises; one that rests on a choice of the spec's own or of the model's says so. -/

open Sys2Proof Sys2Proof.Machine

/-! ## Reset -/

/-- 70_reset_and_hazards.md section 1 and 10_state.md section 1: what reset leaves, for every choice
of the parameters. The values but `PHASE`'s are the spec's own decisions (D7; log entries 6, 7);
that the empty event sequence and the reference parameters stand in `State.reset` is the model's
choice (log entries 1, 5). -/
def Obligations.ResetSetsEveryItem : Prop :=
  (∀ p : Params,
    (State.resetWith p).phase = 0 ∧ (State.resetWith p).buf = p.bufReset ∧
    (State.resetWith p).bpOut = 0b000000#6 ∧ (State.resetWith p).bpDir = 0b000000#6 ∧
    (State.resetWith p).selOut = 0b00000#5 ∧ (State.resetWith p).selDir = 0b00000#5 ∧
    (State.resetWith p).refusal = none ∧ (State.resetWith p).inputs = [] ∧
    (State.resetWith p).params = p) ∧
  State.reset = State.resetWith referenceParams ∧
  referenceParams.bufReset = #v[0x00#8, 0x00#8, 0x00#8, 0x00#8] ∧
  referenceParams.bufReset = pack ⟨0x00#8, 0x00#8, 0x00#8⟩

/-- 10_state.md R34: `PHASE` is 0 at reset, all eight values are reachable, only `ADVANCE` writes it
(so only a step that takes a tick changes it), and no command reads or writes it. -/
def Obligations.PhaseCounterIsAdvancesAlone : Prop :=
  (∀ p : Params, (State.resetWith p).phase = 0) ∧
  (∀ (p : Params) (q : BitVec 3), ∃ t,
    runEvents (List.replicate q.toNat .tick) (State.resetWith p) = .next t ∧ t.phase = q) ∧
  (∀ s t, step s = .next t → t.phase ≠ s.phase → ∃ es, s.inputs = .tick :: es) ∧
  (∀ (i : Instr) (s : State) (q : BitVec 3), i ≠ .advance → ∃ t,
    exec i s = .next t ∧ t.phase = s.phase ∧
    exec i { s with phase := q } = .next { t with phase := q })

/-- 70_reset_and_hazards.md section 1: the first tick after reset drives select 0 inverted, whatever
the parameters; under the reference ones `BP_OUT` is 0x3F and `SEL_OUT` 0x1E. It rests on the
reset values the spec decides (D7; log entries 6, 7). -/
def Obligations.FirstTickAfterReset : Prop :=
  (∀ p : Params, ∃ t, exec .advance (State.resetWith p) = .next t ∧
    t.bpOut = ~~~((p.bufReset[0]).setWidth 6) ∧
    t.selOut = evenSel p.selEvenPolicy 0#2 ∧
    t.bpDir = 0x3F#6 ∧ t.selDir = 0x1F#5 ∧ t.phase = 1#3) ∧
  (∃ t, exec .advance State.reset = .next t ∧ t.bpOut = 0x3F#6 ∧ t.selOut = 0x1E#5)

/-! ## The multiplex driver -/

/-- 42_driver.md R151: the phase transition, from the initial state 0. -/
def Obligations.PhaseAdvancesByOneModuloEight : Prop :=
  State.reset.phase = 0 ∧
  ∀ s : State, ∃ t, exec .advance s = .next t ∧ t.phase.toNat = (s.phase.toNat + 1) % 8

/-- 42_driver.md section 3: what `ADVANCE` does, whole, for every state: all outputs from the phase
before advancing, `BUF`, the refusal mark, the pending events and the parameters unchanged. It rests
on the spec's decisions D3, D4, D6. -/
def Obligations.AdvanceDrivesTheSelectedByte : Prop :=
  ∀ (s : State) (d : Byte), s.buf[s.phase.toNat / 2]? = some d →
    exec .advance s = .next
      { s with
        phase := s.phase + 1
        bpOut := if s.phase.toNat % 2 = 1 then d.setWidth 6 else ~~~(d.setWidth 6)
        bpDir := 0b111111#6
        selOut :=
          if s.phase.toNat % 2 = 1 then (1#5) <<< (s.phase.toNat / 2)
          else match s.params.selEvenPolicy with
            | .complement => ~~~((1#5) <<< (s.phase.toNat / 2))
            | .ballastOnly => 0b10000#5
        selDir := 0b11111#5 }

/-- 42_driver.md R154: the select data on an odd phase. -/
def Obligations.OddPhaseAssertsOneSelectLine : Prop :=
  ∀ s : State, s.phase.toNat % 2 = 1 → ∃ t, exec .advance s = .next t ∧
    t.selOut = 0b0#1 ++ ((1#4) <<< (s.phase.toNat / 2)) ∧
    (∀ i, i < 4 → t.selOut.getLsbD i = decide (i = s.phase.toNat / 2)) ∧
    t.selOut.getLsbD 4 = false

/-- 42_driver.md section 2: the select data on an even phase. Under both policies the ballast line
is asserted and the phase's select line deasserted; the other three lines are the policy's (the
spec's parameter, decision D5; log entry 3). -/
def Obligations.EvenPhaseAssertsTheBallastLine : Prop :=
  ∀ s : State, s.phase.toNat % 2 = 0 → ∃ t, exec .advance s = .next t ∧
    t.selOut.getLsbD 4 = true ∧
    t.selOut.getLsbD (s.phase.toNat / 2) = false ∧
    (∀ i, i < 4 → i ≠ s.phase.toNat / 2 →
      t.selOut.getLsbD i = decide (s.params.selEvenPolicy = .complement))

/-- 42_driver.md section 2: backplane line i shows bit i of the selected byte, inverted on an even
phase (which line takes which bit is the spec's decision D4; log entry 15). -/
def Obligations.BackplaneLinesShowTheSelectedByte : Prop :=
  ∀ (s : State) (d : Byte) (i : Fin 6), s.buf[s.phase.toNat / 2]? = some d →
    ∃ t, exec .advance s = .next t ∧
      bpPin t i = .driven (d.getLsbD i != decide (s.phase.toNat % 2 = 0))

/-- 42_driver.md section 4 and 70_reset_and_hazards.md section 3: with any commands between an even
phase and the odd phase after it, the two `BP_OUT` values are complements of each other exactly if
the commands left the low six bits of the selected byte as they were. -/
def Obligations.PolarityBalanceExactlyIfByteKept : Prop :=
  ∀ (s : State) (ws : List CommandWord) (d d' : Byte),
    s.phase.toNat % 2 = 0 → (∀ w ∈ ws, Assigned w) →
    s.buf[s.phase.toNat / 2]? = some d →
    (bufferAfterWords s.params s.buf ws)[s.phase.toNat / 2]? = some d' →
    ∃ t u, runEvents [.tick] s = .next t ∧
      runEvents (.tick :: ws.map .command ++ [.tick]) s = .next u ∧
      (u.bpOut = ~~~t.bpOut ↔ d'.setWidth 6 = d.setWidth 6)

/-- 42_driver.md section 4: under the policy `COMPLEMENT` the select group of an odd phase is the
complement of the even phase before it, whatever commands come between. -/
def Obligations.SelectGroupIsAlwaysBalanced : Prop :=
  ∀ (s : State) (ws : List CommandWord),
    s.phase.toNat % 2 = 0 → s.params.selEvenPolicy = .complement → (∀ w ∈ ws, Assigned w) →
    ∃ t u, runEvents [.tick] s = .next t ∧
      runEvents (.tick :: ws.map .command ++ [.tick]) s = .next u ∧
      u.selOut = ~~~t.selOut

/-- 42_driver.md section 4 and 70_reset_and_hazards.md section 3: among any 8 consecutive ticks
exactly one drives each phase (so fewer than 8 do not cover all). -/
def Obligations.EachPhaseIsDrivenOncePerFrame : Prop :=
  ∀ (s : State) (q : BitVec 3), ∃ k, k < 8 ∧
    (∃ t, runEvents (List.replicate k .tick) s = .next t ∧ t.phase = q) ∧
    ∀ j t, j < 8 → runEvents (List.replicate j .tick) s = .next t → t.phase = q → j = k

/-- 70_reset_and_hazards.md section 3: every buffer byte is at the pins after one of the next 7
ticks, with its select group. -/
def Obligations.EveryByteReachesThePinsWithinSevenTicks : Prop :=
  ∀ (s : State) (q : BitVec 2) (d : Byte), s.buf[q.toNat]? = some d →
    ∃ k t, k < 7 ∧ runEvents (List.replicate (k + 1) .tick) s = .next t ∧
      ((t.bpOut = d.setWidth 6 ∧ t.selOut = oddSel q) ∨
       (t.bpOut = ~~~(d.setWidth 6) ∧ t.selOut = evenSel s.params.selEvenPolicy q))

/-! ## The display state encoder -/

/-- 41_encoder.md sections 1 and 2: `SETG` writes the packed glyphs and nothing else (that bits 7:6
are 0 is the spec's decision D8; log entry 24). -/
def Obligations.SetgPacksTheSlices : Prop :=
  ∀ (s : State) (g1 g2 g3 : Glyph), ∃ b : Buffer,
    exec (.setg g1 g2 g3) s = .next { s with buf := b } ∧
    ∀ (k : Nat) (hk : k < 4), b[k] =
      (((g1 >>> (2 * k)) &&& 3#8) <<< 4) ||| (((g2 >>> (2 * k)) &&& 3#8) <<< 2) |||
        ((g3 >>> (2 * k)) &&& 3#8)

/-- 41_encoder.md section 1: `pack` is a bijection from glyph triples onto the buffers whose bits 7:6
are all 0, and `unpack` is its inverse. -/
def Obligations.PackUnpackAreInverse : Prop :=
  (∀ t : GlyphTriple, PadClear (pack t) ∧ unpack (pack t) = t) ∧
  (∀ b : Buffer, PadClear b → pack (unpack b) = b)

/-- 41_encoder.md R123: a second `SETG` with the same operands, with ticks but no command between,
leaves `BUF` as the first did. -/
def Obligations.SetgIsIdempotent : Prop :=
  ∀ (s : State) (g1 g2 g3 : Glyph) (n : Nat), ∃ t u,
    runEvents [encode (.setg g1 g2 g3)] s = .next t ∧
    runEvents (encode (.setg g1 g2 g3) :: List.replicate n .tick ++ [encode (.setg g1 g2 g3)]) s
      = .next u ∧
    u.buf = t.buf

/-- 41_encoder.md R124: the digits of a number up to 999, and that any correct decomposition is this
one. -/
def Obligations.DigitDecomposition : Prop :=
  ∀ (m : Nat) (hm : m ≤ 999),
    (decompose m hm).h.val = m / 100 ∧ (decompose m hm).t.val = m / 10 % 10 ∧
    (decompose m hm).u.val = m % 10 ∧
    m = 100 * (decompose m hm).h.val + 10 * (decompose m hm).t.val + (decompose m hm).u.val ∧
    ∀ d : Digits, m = 100 * d.h.val + 10 * d.t.val + d.u.val → d = decompose m hm

/-- 41_encoder.md R125, R128, R129: `SETN` renders a value in range as its digits, leading zeros
blank and a dash for the hundreds of a negative value, and a value out of range as three dashes; it
writes nothing but `BUF`. -/
def Obligations.SetnRendersTheValue : Prop :=
  (∀ (s : State) (v : Int) (gh gt gu : Glyph), -99 ≤ v → v ≤ 999 →
    s.params.digitGlyph[v.natAbs / 100]? = some gh →
    s.params.digitGlyph[v.natAbs / 10 % 10]? = some gt →
    s.params.digitGlyph[v.natAbs % 10]? = some gu →
    exec (.setn v) s = .next
      { s with
        buf := pack
          ⟨if v < 0 then s.params.dashGlyph else if 100 ≤ v.natAbs then gh else 0x00#8,
            if 10 ≤ v.natAbs then gt else 0x00#8, gu⟩ }) ∧
  (∀ (s : State) (v : Int), v < -99 ∨ 999 < v →
    exec (.setn v) s = .next
      { s with
        buf := pack ⟨s.params.dashGlyph, s.params.dashGlyph, s.params.dashGlyph⟩ })

/-- 41_encoder.md section 3, the corner values of `SETN`, for every choice of the glyphs. -/
def Obligations.SetnCornerValues : Prop :=
  ∀ s : State,
    let d := s.params.digitGlyph.get
    let m := s.params.dashGlyph
    exec (.setn 0) s = .next { s with buf := pack ⟨0, 0, d 0⟩ } ∧
    exec (.setn 7) s = .next { s with buf := pack ⟨0, 0, d 7⟩ } ∧
    exec (.setn 10) s = .next { s with buf := pack ⟨0, d 1, d 0⟩ } ∧
    exec (.setn 100) s = .next { s with buf := pack ⟨d 1, d 0, d 0⟩ } ∧
    exec (.setn 999) s = .next { s with buf := pack ⟨d 9, d 9, d 9⟩ } ∧
    exec (.setn 1000) s = .next { s with buf := pack ⟨m, m, m⟩ } ∧
    exec (.setn (-1)) s = .next { s with buf := pack ⟨m, 0, d 1⟩ } ∧
    exec (.setn (-10)) s = .next { s with buf := pack ⟨m, d 1, d 0⟩ } ∧
    exec (.setn (-99)) s = .next { s with buf := pack ⟨m, d 9, d 9⟩ } ∧
    exec (.setn (-100)) s = .next { s with buf := pack ⟨m, m, m⟩ } ∧
    exec (.setn 8388607) s = .next { s with buf := pack ⟨m, m, m⟩ } ∧
    exec (.setn (-8388608)) s = .next { s with buf := pack ⟨m, m, m⟩ }

/-- 95_test_vectors.md section 1 (S11): the buffer after `SETN` tells the value, for every value in
range, where the ten digits, the blank and the dash all look different: two values that leave equal
buffers are equal, in whatever states with the same parameters they were set. -/
def Obligations.SetnBufferTellsTheValue : Prop :=
  ∀ (s s' : State) (v w : Int) (t u : State), s'.params = s.params →
    (0x00#8 :: s.params.dashGlyph :: s.params.digitGlyph.toList).Nodup →
    -99 ≤ v → v ≤ 999 → -99 ≤ w → w ≤ 999 →
    exec (.setn v) s = .next t → exec (.setn w) s' = .next u → t.buf = u.buf → v = w

/-- 41_encoder.md section 4: `SETS` renders its codes left-justified, the first 0x00 ends the string,
and it writes nothing but `BUF` (the ending is the spec's decision D16; log entry 13). -/
def Obligations.SetsRendersUpToTheFirstNul : Prop :=
  ∀ (s : State) (c1 c2 c3 : CharCode),
    (c1 = 0 → exec (.sets c1 c2 c3) s = .next { s with buf := pack ⟨0, 0, 0⟩ }) ∧
    (c1 ≠ 0 → c2 = 0 →
      exec (.sets c1 c2 c3) s = .next { s with buf := pack ⟨glyphFor s.params c1, 0, 0⟩ }) ∧
    (c1 ≠ 0 → c2 ≠ 0 → c3 = 0 →
      exec (.sets c1 c2 c3) s = .next
        { s with buf := pack ⟨glyphFor s.params c1, glyphFor s.params c2, 0⟩ }) ∧
    (c1 ≠ 0 → c2 ≠ 0 → c3 ≠ 0 →
      exec (.sets c1 c2 c3) s = .next
        { s with
          buf := pack ⟨glyphFor s.params c1, glyphFor s.params c2, glyphFor s.params c3⟩ })

/-- 40_glyph_table.md section 2: the glyph of each of the 256 codes (the code points are ASCII's, the
spec's decision D13; log entry 13). -/
def Obligations.GlyphTableLookup : Prop :=
  ∀ (p : Params) (c : CharCode),
    (∀ d : Fin 10, c.toNat = 0x30 + d.val → glyphFor p c = p.digitGlyph.get d) ∧
    (∀ l : Fin 26, c.toNat = 0x41 + l.val → glyphFor p c = p.alphaGlyph.get l) ∧
    (∀ l : Fin 26, c.toNat = 0x61 + l.val → glyphFor p c = p.alphaGlyph.get l) ∧
    ((c.toNat < 0x30 ∨ (0x39 < c.toNat ∧ c.toNat < 0x41) ∨
        (0x5A < c.toNat ∧ c.toNat < 0x61) ∨ 0x7A < c.toNat) → glyphFor p c = 0x00#8)

/-- 40_glyph_table.md section 2: under any parameters that meet the spec's constraints, `SETS` of one
digit lights segment G of the leftmost position exactly for the digits with a middle bar, and the
reference parameters meet them. -/
def Obligations.MiddleBarOfTheDigits : Prop :=
  referenceParams.Legal ∧
  ∀ (s : State) (d : Fin 10), s.params.Legal → ∃ t,
    exec (.sets (BitVec.ofNat 8 (0x30 + d.val)) 0 0) s = .next t ∧
    (lit s.params (unpack t.buf).g1 .g = true ↔ d ∈ [(2 : Fin 10), 3, 4, 5, 6, 8, 9])

/-- 40_glyph_table.md section 2: the reference digit glyphs light exactly the listed segments (general
knowledge of the spec's own, decisions D9, D10; log entry 5). -/
def Obligations.ReferenceDigitSegments : Prop :=
  ∀ seg : Segment,
    let shows := fun d : Fin 10 => lit referenceParams (referenceParams.digitGlyph.get d) seg
    shows 0 = decide (seg ∈ [Segment.a, .b, .c, .d, .e, .f]) ∧
    shows 1 = decide (seg ∈ [Segment.b, .c]) ∧
    shows 2 = decide (seg ∈ [Segment.a, .b, .d, .e, .g]) ∧
    shows 3 = decide (seg ∈ [Segment.a, .b, .c, .d, .g]) ∧
    shows 4 = decide (seg ∈ [Segment.b, .c, .f, .g]) ∧
    shows 5 = decide (seg ∈ [Segment.a, .c, .d, .f, .g]) ∧
    shows 6 = decide (seg ∈ [Segment.a, .c, .d, .e, .f, .g]) ∧
    shows 7 = decide (seg ∈ [Segment.a, .b, .c]) ∧
    shows 8 = decide (seg ∈ [Segment.a, .b, .c, .d, .e, .f, .g]) ∧
    shows 9 = decide (seg ∈ [Segment.a, .b, .c, .d, .f, .g]) ∧
    lit referenceParams referenceParams.dashGlyph seg = decide (seg = .g)

/-- 41_encoder.md R136, with the frame of the three commands `SETG`, `SETN`, `SETS`: the operands (and
the machine's constants, `params`) alone determine one value, which each command writes to all of
`BUF` in every state, whatever the previous `BUF`, the phase, the registers, the mark and the pending
events; it changes nothing else and no pin. -/
def Obligations.CommandsReplaceTheBufferOnly : Prop :=
  ∀ (i : Instr) (p : Params), i ≠ .advance → ∃ b : Buffer, ∀ s : State, s.params = p →
    exec i s = .next { s with buf := b } ∧ pins { s with buf := b } = pins s

/-! ## Encoding -/

/-- 30_encoding.md section 3: encoding every well-formed operation and decoding it gives it back (the
encoding is the spec's decision D14). -/
def Obligations.DecodeOfEncode : Prop :=
  ∀ i : Instr, i.wellFormed = true → decode (encode i) = .ok i

/-- 30_encoding.md section 3: for every word that decodes, encoding gives the word back, and what it
decodes to is well formed. -/
def Obligations.EncodeOfDecode : Prop :=
  ∀ (w : CommandWord) (i : Instr), decodeWord w = .ok i →
    encode i = .command w ∧ i.wellFormed = true

/-- 30_encoding.md section 3: the decoder reads the top byte alone to know what a word is, and every
value but 1, 2 and 3 is reserved; no command word is `ADVANCE`. -/
def Obligations.OpcodeMapPartitionsTheWords : Prop :=
  ∀ w : CommandWord,
    ((w.toNat / 2 ^ 24 = 1 ∧ ∃ g1 g2 g3, decodeWord w = .ok (.setg g1 g2 g3)) ∨
     (w.toNat / 2 ^ 24 = 2 ∧ ∃ v, decodeWord w = .ok (.setn v)) ∨
     (w.toNat / 2 ^ 24 = 3 ∧ ∃ c1 c2 c3, decodeWord w = .ok (.sets c1 c2 c3)) ∨
     ((w.toNat / 2 ^ 24 = 0 ∨ 4 ≤ w.toNat / 2 ^ 24) ∧ decodeWord w = .error .reservedOpcode))

/-- 30_encoding.md section 5 and 95_test_vectors.md section 2.6: written-out words. -/
def Obligations.WrittenOutWordsDecode : Prop :=
  decode (.command 0x0100665B#32) = .ok (.setg 0x00#8 0x66#8 0x5B#8) ∧
  decode (.command 0x0200002A#32) = .ok (.setn 42) ∧
  decode (.command 0x02FFFFF9#32) = .ok (.setn (-7)) ∧
  decode (.command 0x02800000#32) = .ok (.setn (-8388608)) ∧
  decode (.command 0x03343200#32) = .ok (.sets 0x34#8 0x32#8 0x00#8) ∧
  decode (.command 0x00000000#32) = .error .reservedOpcode ∧
  decode (.command 0x04000000#32) = .error .reservedOpcode ∧
  decode (.command 0xFF123456#32) = .error .reservedOpcode ∧
  decode .tick = .ok .advance

/-- 30_encoding.md section 5: the assembler's words, pseudo-instructions among them. -/
def Obligations.AssemblerExamples : Prop :=
  assemble "SETG 0x00, 0x66, 0x5B".toList = some [.command 0x0100665B#32] ∧
  assemble "SETN 42 ; a comment".toList = some [.command 0x0200002A#32] ∧
  assemble "SETN -7".toList = some [.command 0x02FFFFF9#32] ∧
  assemble "SETN 1000".toList = some [.command 0x020003E8#32] ∧
  assemble "SETN -100".toList = some [.command 0x02FFFF9C#32] ∧
  assemble "SETS \"42\"".toList = some [.command 0x03343200#32] ∧
  assemble "SETS '4', '2', 0".toList = some [.command 0x03343200#32] ∧
  assemble "SETS \"HELLO\"".toList = some [.command 0x0348454C#32] ∧
  assemble "BLANK".toList = some [.command 0x01000000#32] ∧
  assemble "TICK\nTICKS 2".toList = some [.tick, .tick, .tick] ∧
  assemble "SETG 256, 0, 0".toList = none

/-- 30_encoding.md section 5: an operand of `SETN`, `SETG` or `SETS` outside its range is an assembly
error and no other operand is. That a negative count of `TICKS` is an assembly error too is the
model's choice (log entry 20): the spec gives the range n >= 0 and does not say what another n is. -/
def Obligations.OperandRangeErrors : Prop :=
  (∀ v : Int, assembleOp (.setn v) = none ↔ (v < -8388608 ∨ 8388607 < v)) ∧
  (∀ x y z : Int, assembleOp (.setg x y z) = none ↔
    ¬((0 ≤ x ∧ x ≤ 255) ∧ (0 ≤ y ∧ y ≤ 255) ∧ (0 ≤ z ∧ z ≤ 255))) ∧
  (∀ x y z : Int, assembleOp (.sets x y z) = none ↔
    ¬((0 ≤ x ∧ x ≤ 255) ∧ (0 ≤ y ∧ y ≤ 255) ∧ (0 ≤ z ∧ z ≤ 255))) ∧
  (∀ n : Int, assembleOp (.ticks n) = none ↔ n < 0)

/-! ## Steps and executions -/

/-- 42_driver.md section 4 and 60_exceptions.md section 1: no operation faults, refuses or waits; each
has a next state in every state and for every operand. -/
def Obligations.EveryOperationCompletes : Prop :=
  ∀ (i : Instr) (s : State), ∃ t, exec i s = .next t

/-- A step runs the decoded instruction: the event is taken off the sequence (the model's own field,
log entry 1), and the rest of the state is the operation's (20_memory.md section 3). -/
def Obligations.StepPerformsTheDecodedEvent : Prop :=
  ∀ (s : State) (e : Event) (es : List Event) (i : Instr),
    s.inputs = e :: es → decode e = .ok i → step s = exec i { s with inputs := es }

/-- An instruction of the opcode table delivered by `withFetchWord` is the one the next step runs,
and delivering it puts its event before those pending and changes nothing else; bits that stand for no
event deliver nothing (the model's own, log entries 1, 12). -/
def Obligations.DeliveredWordRunsNext : Prop :=
  (∀ (s : State) (nbits w : Nat) (i : Instr), decodeTableWord nbits w = some i →
    step (s.withFetchWord nbits w) = exec i s) ∧
  (∀ (s : State) (nbits w : Nat) (e : Event), portEvent nbits w = some e →
    s.withFetchWord nbits w = { s with inputs := e :: s.inputs }) ∧
  (∀ (s : State) (nbits w : Nat), portEvent nbits w = none → s.withFetchWord nbits w = s)

/-- 30_encoding.md section 4 and 60_exceptions.md section 1: a reserved word changes no state of
10_state.md and sets the refusal mark. That the machine takes a next state, as 95_test_vectors.md
P4 does, is the model's choice (log entry 8). -/
def Obligations.ReservedWordSetsTheMarkOnly : Prop :=
  ∀ (s : State) (w : CommandWord) (es : List Event), s.inputs = .command w :: es → ¬Assigned w →
    step s = .next { s with inputs := es, refusal := some .reservedOpcode }

/-- With no event pending a step changes nothing: the model's choice (log entry 2), from "it only
reacts to events" (00_scope.md section 2). -/
def Obligations.IdleStepChangesNothing : Prop :=
  ∀ s : State, s.inputs = [] → step s = .next s

/-- 60_exceptions.md section 1: an execution ends with the mark clear exactly if it began so and held
no reserved word; no later event clears it. -/
def Obligations.MarkIsSetExactlyByReservedWords : Prop :=
  ∀ (es : List Event) (s : State), ∃ t, runEvents es s = .next t ∧
    (t.Accepted ↔ (s.Accepted ∧ ∀ e ∈ es, Served e))

/-- 20_memory.md section 3: over every interleaving of the two agents' sequences all events are
performed, `PHASE` counts the ticks and `BUF` holds what the writer's commands left, whatever the
order. -/
def Obligations.EveryInterleavingPerformsAllEvents : Prop :=
  ∀ (n : Nat) (ws : List CommandWord) (es : List Event) (s : State),
    Interleaves n ws es → (∀ w ∈ ws, Assigned w) →
    ∃ t, runEvents es s = .next t ∧ t.inputs = [] ∧
      t.phase = s.phase + BitVec.ofNat 3 n ∧
      t.buf = bufferAfterWords s.params s.buf ws ∧
      t.params = s.params ∧ t.refusal = s.refusal

/-- 20_memory.md sections 1 and 3, 42_driver.md section 3: whatever events came before it, in any
interleaving, a tick drives the phase that the ticks before it give and the buffer that the whole
commands before it left, never a mix. -/
def Obligations.TickDrivesTheBufferOfTheCommandsBefore : Prop :=
  ∀ (n : Nat) (ws : List CommandWord) (es : List Event) (s : State) (d : Byte),
    Interleaves n ws es → (∀ w ∈ ws, Assigned w) →
    (bufferAfterWords s.params s.buf ws)[((s.phase.toNat + n) % 8) / 2]? = some d →
    ∃ t, runEvents (es ++ [.tick]) s = .next t ∧
      t.bpOut = (if (s.phase.toNat + n) % 2 = 1 then d.setWidth 6 else ~~~(d.setWidth 6)) ∧
      t.selOut = selPattern s.params.selEvenPolicy (s.phase + BitVec.ofNat 3 n) ∧
      t.bpDir = 0x3F#6 ∧ t.selDir = 0x1F#5

/-- 42_driver.md section 4: between ticks nothing writes the GPIO registers, so the pins hold. -/
def Obligations.PinsHoldBetweenTicks : Prop :=
  ∀ (es : List Event) (s : State), tickCount es = 0 → (∀ e ∈ es, Served e) →
    ∃ t, runEvents es s = .next t ∧ t.bpOut = s.bpOut ∧ t.bpDir = s.bpDir ∧
      t.selOut = s.selOut ∧ t.selDir = s.selDir ∧ pins t = pins s

/-- 70_reset_and_hazards.md section 1: after reset and before the first tick every one of the 11 pins
is undriven, whatever commands come (pins undriven while the direction is 0: the spec's decisions
D6, D26; log entry 7). -/
def Obligations.PinsAreUndrivenBeforeTheFirstTick : Prop :=
  ∀ (p : Params) (es : List Event), tickCount es = 0 → (∀ e ∈ es, Served e) →
    ∃ t, runEvents es (State.resetWith p) = .next t ∧ pins t = List.replicate 11 .undriven

/-- 10_state.md section 5: once a tick has come, the direction registers are all ones for ever and
every pin is driven. -/
def Obligations.DirectionsStayAllOnesAfterATick : Prop :=
  ∀ (es : List Event) (s : State), 0 < tickCount es → (∀ e ∈ es, Served e) →
    ∃ t, runEvents es s = .next t ∧ t.bpDir = 0x3F#6 ∧ t.selDir = 0x1F#5 ∧
      ∀ x ∈ pins t, x ≠ .undriven

/-! ## Invariants -/

/-- 10_state.md section 5, 42_driver.md section 3, 70_reset_and_hazards.md section 1: every step keeps
the invariant `OutputsInv` of the directions and the select group (all four GPIO registers 0 before
the first tick; after it both directions all ones and the select group showing the phase before
`PHASE`), and a step that takes no tick leaves all four GPIO registers, `BP_OUT` among them, as they
were. -/
def Obligations.StepKeepsTheOutputs : Prop :=
  (∀ s t : State, OutputsInv s → step s = .next t → OutputsInv t) ∧
  (∀ s t : State, (∀ es, s.inputs ≠ .tick :: es) → step s = .next t →
    t.bpOut = s.bpOut ∧ t.bpDir = s.bpDir ∧ t.selOut = s.selOut ∧ t.selDir = s.selDir)

/-- The invariant of the outputs holds after reset, for every choice of the parameters (reset values
by the spec's decision D7; log entry 7). -/
def Obligations.ResetHasLegalOutputs : Prop :=
  ∀ p : Params, OutputsInv (State.resetWith p)

/-- 10_state.md section 4: every step keeps bits 7:6 of the buffer bytes 0, and a command makes them 0
whatever they were. -/
def Obligations.StepKeepsThePadClear : Prop :=
  (∀ s t : State, PadClear s.buf → step s = .next t → PadClear t.buf) ∧
  (∀ (s : State) (w : CommandWord) (es : List Event), s.inputs = .command w :: es → Assigned w →
    ∃ t, step s = .next t ∧ PadClear t.buf)

/-- The reset buffer has bits 7:6 of every byte 0 under the reference `BUF_RESET` (the spec's decision
D7; log entry 6). -/
def Obligations.ResetHasPadClear : Prop :=
  PadClear State.reset.buf

/-- 10_state.md section 6: no step writes the parameters, the glyph table among them. (That they stand
in State is the model's choice, log entry 3.) -/
def Obligations.StepKeepsTheParameters : Prop :=
  ∀ s t : State, step s = .next t → t.params = s.params

/-! ## Non-interference -/

/-- 10_state.md section 4: bits 7:6 of the buffer never reach an output: two machines that differ in
them alone show the same pins after any number of steps. -/
def Obligations.PadBitsNeverReachThePins : Prop :=
  ∀ (n : Nat) (s t : State), PadEquiv s t → ∃ s' t',
    Host.Core.run Sys2Proof.core n s = .next s' ∧ Host.Core.run Sys2Proof.core n t = .next t' ∧
    PadEquiv s' t' ∧ pins s' = pins t'

/-- 60_exceptions.md section 5: the writer cannot start, stop, delay or trigger an `ADVANCE`: after as
many ticks, whatever the writer sent and however it was interleaved, the phase, the select group and
the directions are the same. -/
def Obligations.WriterCannotDisturbTheDrive : Prop :=
  ∀ (n : Nat) (ws ws' : List CommandWord) (es es' : List Event) (s t : State),
    Interleaves n ws es → Interleaves n ws' es' →
    (∀ w ∈ ws, Assigned w) → (∀ w ∈ ws', Assigned w) → DriveEquiv s t →
    ∃ s' t', runEvents es s = .next s' ∧ runEvents es' t = .next t' ∧ DriveEquiv s' t'

/-! ## Pins -/

/-- 10_state.md section 5: MUXDISP drives 11 lines, and each is driven to its data bit exactly where
its direction bit is 1 (undriven otherwise is the spec's decision D26; log entry 7). -/
def Obligations.PinsFollowTheRegisters : Prop :=
  ∀ s : State, (pins s).length = 11 ∧
    (∀ (i : Fin 6) (v : Bool), (pins s)[i.val]? = some (.driven v) ↔
      (s.bpDir.getLsbD i = true ∧ s.bpOut.getLsbD i = v)) ∧
    (∀ (i : Fin 5) (v : Bool), (pins s)[6 + i.val]? = some (.driven v) ↔
      (s.selDir.getLsbD i = true ∧ s.selOut.getLsbD i = v))

/-- 10_state.md section 5: the values `ADVANCE` can write to `SEL_OUT`, under each policy. -/
def Obligations.SelOutTakesOnlyTheListedValues : Prop :=
  ∀ s : State, ∃ t, exec .advance s = .next t ∧
    (s.params.selEvenPolicy = .complement →
      t.selOut ∈ [0x01#5, 0x02#5, 0x04#5, 0x08#5, 0x1E#5, 0x1D#5, 0x1B#5, 0x17#5]) ∧
    (s.params.selEvenPolicy = .ballastOnly →
      t.selOut ∈ [0x01#5, 0x02#5, 0x04#5, 0x08#5, 0x10#5])
end

