-- ==== Sys2Proof/Laws/Fields.lean ====
section
/-! SUPPORT. Fields of a concatenation: what the encoder puts into a word, the decoder's field reads
give back. -/

namespace Sys2Proof

/-- Bits above the low part of a concatenation are the high part's. -/
theorem extract_append_high {m n : Nat} (x : BitVec m) (y : BitVec n) (k l : Nat) :
    (x ++ y).extractLsb' (n + k) l = x.extractLsb' k l := by
  apply BitVec.eq_of_getLsbD_eq
  intro i hi
  simp [BitVec.getLsbD_append, hi, show ¬n + k + i < n by omega, show n + k + i - n = k + i by omega]

/-- Bits within the low part of a concatenation are the low part's. -/
theorem extract_append_low {m n : Nat} (x : BitVec m) (y : BitVec n) (k l : Nat) (h : k + l ≤ n) :
    (x ++ y).extractLsb' k l = y.extractLsb' k l := by
  apply BitVec.eq_of_getLsbD_eq
  intro i hi
  simp [BitVec.getLsbD_append, hi, show k + i < n by omega]

end Sys2Proof
end

