-- ==== Sys2Proof/Laws/State.lean ====
section
/-! SUPPORT. One lemma per field per update of State, true by rfl: no later proof unfolds a record
update. -/

namespace Sys2Proof.Machine

section writeBuf

variable (b : Buffer) (s : State)

@[simp] theorem writeBuf_phase : (writeBuf b s).phase = s.phase := rfl
@[simp] theorem writeBuf_buf : (writeBuf b s).buf = b := rfl
@[simp] theorem writeBuf_bpOut : (writeBuf b s).bpOut = s.bpOut := rfl
@[simp] theorem writeBuf_bpDir : (writeBuf b s).bpDir = s.bpDir := rfl
@[simp] theorem writeBuf_selOut : (writeBuf b s).selOut = s.selOut := rfl
@[simp] theorem writeBuf_selDir : (writeBuf b s).selDir = s.selDir := rfl
@[simp] theorem writeBuf_refusal : (writeBuf b s).refusal = s.refusal := rfl
@[simp] theorem writeBuf_inputs : (writeBuf b s).inputs = s.inputs := rfl
@[simp] theorem writeBuf_params : (writeBuf b s).params = s.params := rfl

end writeBuf

section writeOutputs

variable (o : Outputs) (s : State)

@[simp] theorem writeOutputs_phase : (writeOutputs o s).phase = s.phase := rfl
@[simp] theorem writeOutputs_buf : (writeOutputs o s).buf = s.buf := rfl
@[simp] theorem writeOutputs_bpOut : (writeOutputs o s).bpOut = o.bp := rfl
@[simp] theorem writeOutputs_bpDir : (writeOutputs o s).bpDir = o.bpDir := rfl
@[simp] theorem writeOutputs_selOut : (writeOutputs o s).selOut = o.sel := rfl
@[simp] theorem writeOutputs_selDir : (writeOutputs o s).selDir = o.selDir := rfl
@[simp] theorem writeOutputs_refusal : (writeOutputs o s).refusal = s.refusal := rfl
@[simp] theorem writeOutputs_inputs : (writeOutputs o s).inputs = s.inputs := rfl
@[simp] theorem writeOutputs_params : (writeOutputs o s).params = s.params := rfl

end writeOutputs

section writePhase

variable (p : BitVec 3) (s : State)

@[simp] theorem writePhase_phase : (writePhase p s).phase = p := rfl
@[simp] theorem writePhase_buf : (writePhase p s).buf = s.buf := rfl
@[simp] theorem writePhase_bpOut : (writePhase p s).bpOut = s.bpOut := rfl
@[simp] theorem writePhase_bpDir : (writePhase p s).bpDir = s.bpDir := rfl
@[simp] theorem writePhase_selOut : (writePhase p s).selOut = s.selOut := rfl
@[simp] theorem writePhase_selDir : (writePhase p s).selDir = s.selDir := rfl
@[simp] theorem writePhase_refusal : (writePhase p s).refusal = s.refusal := rfl
@[simp] theorem writePhase_inputs : (writePhase p s).inputs = s.inputs := rfl
@[simp] theorem writePhase_params : (writePhase p s).params = s.params := rfl

end writePhase

section setInputs

variable (es : List Event) (s : State)

@[simp] theorem setInputs_phase : (setInputs es s).phase = s.phase := rfl
@[simp] theorem setInputs_buf : (setInputs es s).buf = s.buf := rfl
@[simp] theorem setInputs_bpOut : (setInputs es s).bpOut = s.bpOut := rfl
@[simp] theorem setInputs_bpDir : (setInputs es s).bpDir = s.bpDir := rfl
@[simp] theorem setInputs_selOut : (setInputs es s).selOut = s.selOut := rfl
@[simp] theorem setInputs_selDir : (setInputs es s).selDir = s.selDir := rfl
@[simp] theorem setInputs_refusal : (setInputs es s).refusal = s.refusal := rfl
@[simp] theorem setInputs_inputs : (setInputs es s).inputs = es := rfl
@[simp] theorem setInputs_params : (setInputs es s).params = s.params := rfl

end setInputs

section refuse

variable (r : RefuseReason) (s : State)

@[simp] theorem refuse_phase : (refuse r s).phase = s.phase := rfl
@[simp] theorem refuse_buf : (refuse r s).buf = s.buf := rfl
@[simp] theorem refuse_bpOut : (refuse r s).bpOut = s.bpOut := rfl
@[simp] theorem refuse_bpDir : (refuse r s).bpDir = s.bpDir := rfl
@[simp] theorem refuse_selOut : (refuse r s).selOut = s.selOut := rfl
@[simp] theorem refuse_selDir : (refuse r s).selDir = s.selDir := rfl
@[simp] theorem refuse_refusal : (refuse r s).refusal = some r := rfl
@[simp] theorem refuse_inputs : (refuse r s).inputs = s.inputs := rfl
@[simp] theorem refuse_params : (refuse r s).params = s.params := rfl

end refuse

section resetWith

variable (p : Params)

@[simp] theorem resetWith_phase : (State.resetWith p).phase = 0 := rfl
@[simp] theorem resetWith_buf : (State.resetWith p).buf = p.bufReset := rfl
@[simp] theorem resetWith_bpOut : (State.resetWith p).bpOut = 0 := rfl
@[simp] theorem resetWith_bpDir : (State.resetWith p).bpDir = 0 := rfl
@[simp] theorem resetWith_selOut : (State.resetWith p).selOut = 0 := rfl
@[simp] theorem resetWith_selDir : (State.resetWith p).selDir = 0 := rfl
@[simp] theorem resetWith_refusal : (State.resetWith p).refusal = none := rfl
@[simp] theorem resetWith_inputs : (State.resetWith p).inputs = [] := rfl
@[simp] theorem resetWith_params : (State.resetWith p).params = p := rfl

end resetWith

end Sys2Proof.Machine
end

