-- ==== Sys2Proof/Laws/Ops.lean ====
section
/-! SUPPORT. For each shared operation, the lemmas that say once what it gives, so that no later proof
unfolds it. -/

namespace Sys2Proof.Machine

/-! ## Select and polarity -/

/-- `select p` as a number. -/
theorem select_toNat (p : BitVec 3) : (select p).toNat = p.toNat / 2 := by
  revert p; decide

/-- `polarity p` is 1 exactly on the odd phases. -/
theorem polarity_eq_one_iff (p : BitVec 3) : polarity p = 1#1 ↔ p.toNat % 2 = 1 := by
  revert p; decide

/-- `BUF[s]` through the list-style lookup. -/
theorem getElem?_eq_readBuf (b : Buffer) (s : BitVec 2) : b[s.toNat]? = some (readBuf b s) := by
  have h : s.toNat < 4 := s.isLt
  rw [Vector.getElem?_eq_getElem h]
  rfl

/-- A byte found at the index `select p` is the byte `readBuf` reads. -/
theorem eq_readBuf_of_getElem? {b : Buffer} {p : BitVec 3} {d : Byte}
    (h : b[p.toNat / 2]? = some d) : d = readBuf b (select p) := by
  rw [← select_toNat, getElem?_eq_readBuf] at h
  exact (Option.some.inj h).symm

/-! ## Packing -/

/-- Byte `k` of a packed buffer. -/
theorem getElem_pack (t : GlyphTriple) (k : Nat) (hk : k < 4) : (pack t)[k] = packByte t k := by
  rcases k with _ | _ | _ | _ | k
  · rfl
  · rfl
  · rfl
  · rfl
  · omega

/-- Bits 7:6 of a packed byte are 0. -/
theorem packByte_pad (t : GlyphTriple) (k : Nat) : (packByte t k).extractLsb' 6 2 = 0#2 :=
  (extract_append_high _ (slice t.g3 k) 4 2).trans
    ((extract_append_high _ (slice t.g2 k) 2 2).trans
      ((extract_append_high 0b00#2 (slice t.g1 k) 0 2).trans BitVec.extractLsb'_eq_self))

/-- Bits 5:4 of a packed byte are the leftmost glyph's slice. -/
theorem packByte_g1 (t : GlyphTriple) (k : Nat) :
    (packByte t k).extractLsb' 4 2 = slice t.g1 k :=
  (extract_append_high _ (slice t.g3 k) 2 2).trans
    ((extract_append_high _ (slice t.g2 k) 0 2).trans
      ((extract_append_low 0b00#2 (slice t.g1 k) 0 2 (by omega)).trans BitVec.extractLsb'_eq_self))

/-- Bits 3:2 of a packed byte are the middle glyph's slice. -/
theorem packByte_g2 (t : GlyphTriple) (k : Nat) :
    (packByte t k).extractLsb' 2 2 = slice t.g2 k :=
  (extract_append_high _ (slice t.g3 k) 0 2).trans
    ((extract_append_low _ (slice t.g2 k) 0 2 (by omega)).trans BitVec.extractLsb'_eq_self)

/-- Bits 1:0 of a packed byte are the rightmost glyph's slice. -/
theorem packByte_g3 (t : GlyphTriple) (k : Nat) :
    (packByte t k).extractLsb' 0 2 = slice t.g3 k :=
  (extract_append_low _ (slice t.g3 k) 0 2 (by omega)).trans BitVec.extractLsb'_eq_self

/-- Slice `k` of a gathered glyph is the two bits of byte `k` it was gathered from. -/
theorem gather_slice (b : Buffer) (off k : Nat) (hk : k < 4) :
    slice (gather b off) k = b[k].extractLsb' off 2 := by
  rcases k with _ | _ | _ | _ | k
  · exact (extract_append_low _ _ 0 2 (by omega)).trans BitVec.extractLsb'_eq_self
  · exact (extract_append_high _ _ 0 2).trans
      ((extract_append_low _ _ 0 2 (by omega)).trans BitVec.extractLsb'_eq_self)
  · exact (extract_append_high _ _ 2 2).trans ((extract_append_high _ _ 0 2).trans
      ((extract_append_low _ _ 0 2 (by omega)).trans BitVec.extractLsb'_eq_self))
  · exact (extract_append_high _ _ 4 2).trans ((extract_append_high _ _ 2 2).trans
      ((extract_append_high _ _ 0 2).trans BitVec.extractLsb'_eq_self))
  · omega

/-- A packed buffer has all pad bits 0. -/
theorem padClear_pack (t : GlyphTriple) : PadClear (pack t) := by
  intro k
  have h := getElem_pack t k.val k.isLt
  have hg : (pack t).get k = (pack t)[k.val] := rfl
  rw [hg, h, packByte_pad]

/-! ## The output logic -/

/-- `drive` on an odd phase. -/
theorem drive_odd (policy : SelEvenPolicy) {p : BitVec 3} (b : Buffer) (h : p.toNat % 2 = 1) :
    drive policy p b =
      ⟨(readBuf b (select p)).extractLsb' 0 6, 0b111111#6, oddSel (select p), 0b11111#5⟩ := by
  simp [drive, (polarity_eq_one_iff p).2 h]

/-- `drive` on an even phase. -/
theorem drive_even (policy : SelEvenPolicy) {p : BitVec 3} (b : Buffer) (h : p.toNat % 2 = 0) :
    drive policy p b =
      ⟨(~~~(readBuf b (select p))).extractLsb' 0 6, 0b111111#6, evenSel policy (select p),
        0b11111#5⟩ := by
  have hp : ¬polarity p = 1#1 := by rw [polarity_eq_one_iff]; omega
  simp [drive, hp]

/-- The directions and the select group of `drive` do not depend on the buffer. -/
theorem drive_frame (policy : SelEvenPolicy) (p : BitVec 3) (b : Buffer) :
    (drive policy p b).bpDir = 0b111111#6 ∧ (drive policy p b).selDir = 0b11111#5 ∧
      (drive policy p b).sel = selPattern policy p := by
  unfold drive selPattern
  split <;> simp_all

/-- The backplane data of `drive` is the byte's low six bits, inverted on an even phase. -/
theorem drive_bp (policy : SelEvenPolicy) (p : BitVec 3) (b : Buffer) :
    (drive policy p b).bp =
      if p.toNat % 2 = 1 then (readBuf b (select p)).extractLsb' 0 6
      else ~~~((readBuf b (select p)).extractLsb' 0 6) := by
  by_cases h : p.toNat % 2 = 1
  · simp [drive_odd policy b h, h]
  · have h0 : p.toNat % 2 = 0 := by omega
    rw [drive_even policy b h0, if_neg h]
    ext i hi
    simp; omega

/-- The select group's lines by their numbers. -/
theorem selPattern_eq (policy : SelEvenPolicy) (p : BitVec 3) :
    selPattern policy p =
      if p.toNat % 2 = 1 then (1#5) <<< (p.toNat / 2)
      else match policy with
        | .complement => ~~~((1#5) <<< (p.toNat / 2))
        | .ballastOnly => 0b10000#5 := by
  cases policy
  · revert p; decide
  · revert p; decide

/-! ## Operands -/

/-- A digit's glyph. -/
theorem glyphFor_digit (p : Params) {c : CharCode} (d : Fin 10) (h : c.toNat = 0x30 + d.val) :
    glyphFor p c = p.digitGlyph.get d := by
  have hd : 0x30 ≤ c.toNat ∧ c.toNat ≤ 0x39 := by omega
  have hi : c.toNat - 0x30 = d.val := by omega
  simp only [glyphFor, hd, and_self, ↓reduceDIte, hi]
  rfl

/-- An upper-case letter's glyph. -/
theorem glyphFor_upper (p : Params) {c : CharCode} (l : Fin 26) (h : c.toNat = 0x41 + l.val) :
    glyphFor p c = p.alphaGlyph.get l := by
  have hd : ¬(0x30 ≤ c.toNat ∧ c.toNat ≤ 0x39) := by omega
  have hu : 0x41 ≤ c.toNat ∧ c.toNat ≤ 0x5A := by omega
  have hi : c.toNat - 0x41 = l.val := by omega
  simp only [glyphFor, dif_neg hd, dif_pos hu, hi]
  rfl

/-- A lower-case letter's glyph: the upper-case one's. -/
theorem glyphFor_lower (p : Params) {c : CharCode} (l : Fin 26) (h : c.toNat = 0x61 + l.val) :
    glyphFor p c = p.alphaGlyph.get l := by
  have hd : ¬(0x30 ≤ c.toNat ∧ c.toNat ≤ 0x39) := by omega
  have hu : ¬(0x41 ≤ c.toNat ∧ c.toNat ≤ 0x5A) := by omega
  have hl : 0x61 ≤ c.toNat ∧ c.toNat ≤ 0x7A := by omega
  have hi : c.toNat - 0x61 = l.val := by omega
  simp only [glyphFor, dif_neg hd, dif_neg hu, dif_pos hl, hi]
  rfl

/-- `numeric_glyphs` out of range. -/
theorem numericGlyphs_outOfRange (p : Params) {v : Int} (h : v > 999 ∨ v < -99) :
    numericGlyphs p v = ⟨p.dashGlyph, p.dashGlyph, p.dashGlyph⟩ := by
  simp only [numericGlyphs]
  exact dif_pos h

/-- `numeric_glyphs` in range. -/
theorem numericGlyphs_inRange (p : Params) {v : Int} (h : ¬(v > 999 ∨ v < -99)) :
    numericGlyphs p v =
      inRangeGlyphs p (decide (v < 0)) (decompose v.natAbs (natAbs_le_of_inRange h)) := by
  simp only [numericGlyphs]
  exact dif_neg h

end Sys2Proof.Machine
end

