-- ==== Sys2Proof/Laws/PerInstr.lean ====
section
/-! SUPPORT. The family `EncodedOnItsPort` of LAWS.json, one lemma per constructor of `Instr`: which
port an operation is delivered on and, for a command, the `OP` of its word (30_encoding.md R84). -/

namespace Sys2Proof.Laws.EncodedOnItsPort

/-- `ADVANCE` is a strobe of the tick port; a command is a word with its own `OP`. -/
def Statement (i : Instr) : Prop :=
  match i with
  | .advance => encode i = .tick
  | .setg _ _ _ => ∃ w, encode i = .command w ∧ fieldOp w = 0x01#8
  | .setn _ => ∃ w, encode i = .command w ∧ fieldOp w = 0x02#8
  | .sets _ _ _ => ∃ w, encode i = .command w ∧ fieldOp w = 0x03#8

/-- The top byte of three bytes after an `OP` is the `OP`. -/
theorem fieldOp_append3 (op a b c : BitVec 8) : fieldOp (op ++ a ++ b ++ c) = op :=
  (extract_append_high (op ++ a ++ b) c 16 8).trans
    ((extract_append_high (op ++ a) b 8 8).trans
      ((extract_append_high op a 0 8).trans (BitVec.extractLsb'_eq_self)))

/-- The top byte of 24 bits after an `OP` is the `OP`. -/
theorem fieldOp_append24 (op : BitVec 8) (v : BitVec 24) : fieldOp (op ++ v) = op :=
  (extract_append_high op v 0 8).trans BitVec.extractLsb'_eq_self

theorem advance : Statement .advance := rfl

theorem setg (g1 g2 g3 : Glyph) : Statement (.setg g1 g2 g3) :=
  ⟨_, rfl, fieldOp_append3 _ _ _ _⟩

theorem setn (v : Int) : Statement (.setn v) :=
  ⟨_, rfl, fieldOp_append24 _ _⟩

theorem sets (c1 c2 c3 : CharCode) : Statement (.sets c1 c2 c3) :=
  ⟨_, rfl, fieldOp_append3 _ _ _ _⟩

end Sys2Proof.Laws.EncodedOnItsPort
end

