-- ==== Sys2Proof/Laws/Run.lean ====
section
/-! SUPPORT. What one operation, one step and one execution can do, said once: later proofs cite these
and unfold neither `exec`, `step` nor `run`. -/

namespace Sys2Proof.Machine

/-- The state after `ADVANCE`. -/
def advanced (s : State) : State :=
  writePhase (nextPhase s.phase) (writeOutputs (drive s.params.selEvenPolicy s.phase s.buf) s)

/-- The state after an event, the pending events aside. -/
def performed (e : Event) (s : State) : State :=
  match e with
  | .tick => advanced s
  | .command w =>
    match decodeWord w with
    | .ok _ => writeBuf (bufferAfterWord s.params s.buf w) s
    | .error r => refuse r s

/-- The state after events, the pending events aside. -/
def performedAll : List Event → State → State
  | [], s => s
  | e :: es, s => performedAll es (performed e s)

/-- No command word decodes to `ADVANCE`. -/
theorem decodeWord_ne_advance (w : CommandWord) : decodeWord w ≠ .ok .advance := by
  unfold decodeWord
  split_ifs
  all_goals simp

/-- What an operation can do: `ADVANCE` gives the advanced state, and every other operation writes a
buffer with clear pad bits that its operands and the parameters alone determine. -/
theorem exec_cases {i : Instr} {s t : State} (h : exec i s = .next t) :
    (i = .advance ∧ t = advanced s) ∨
      (i ≠ .advance ∧ ∃ g : GlyphTriple, t = writeBuf (pack g) s ∧
        ∀ s' : State, s'.params = s.params → exec i s' = .next (writeBuf (pack g) s')) := by
  cases i with
  | advance => exact .inl ⟨rfl, (Host.Outcome.next.inj h).symm⟩
  | setg g1 g2 g3 =>
    exact .inr ⟨by simp, ⟨g1, g2, g3⟩, (Host.Outcome.next.inj h).symm, fun _ _ => rfl⟩
  | setn v =>
    refine .inr ⟨by simp, numericGlyphs s.params v, (Host.Outcome.next.inj h).symm, ?_⟩
    intro s' hp
    simp [exec, execSetn, hp]
  | sets c1 c2 c3 =>
    refine .inr ⟨by simp, stringGlyphs s.params c1 c2 c3, (Host.Outcome.next.inj h).symm, ?_⟩
    intro s' hp
    simp [exec, execSets, hp]

/-- An event performed with the rest pending: the next state, with the event taken off. -/
theorem step_setInputs_cons (e : Event) (es : List Event) (s : State) :
    step (setInputs (e :: es) s) = .next (setInputs es (performed e s)) := by
  cases e with
  | tick => rfl
  | command w =>
    simp only [step, takeEvent, setInputs_inputs, Sys2Proof.decode, performed, bufferAfterWord]
    cases h : decodeWord w with
    | error r => rfl
    | ok i =>
      cases i with
      | advance => exact absurd h (decodeWord_ne_advance w)
      | setg g1 g2 g3 => rfl
      | setn v => rfl
      | sets c1 c2 c3 => rfl

/-- What a step can do: nothing where no event is pending, else perform the next one. -/
theorem step_cases {s t : State} (h : step s = .next t) :
    (s.inputs = [] ∧ t = s) ∨
      ∃ e es, s.inputs = e :: es ∧ t = setInputs es (performed e s) := by
  cases hi : s.inputs with
  | nil =>
    have hs : step s = .next s := by simp [step, takeEvent, hi, idle]
    exact .inl ⟨rfl, Host.Outcome.next.inj (h.symm.trans hs)⟩
  | cons e es =>
    have hs : setInputs (e :: es) s = s := by rw [← hi]; rfl
    have h2 := step_setInputs_cons e es s
    rw [hs] at h2
    exact .inr ⟨e, es, rfl, Host.Outcome.next.inj (h.symm.trans h2)⟩

/-- Performing an event does not look at the pending ones. -/
theorem performed_setInputs (e : Event) (es : List Event) (s : State) :
    performed e (setInputs es s) = setInputs es (performed e s) := by
  cases e with
  | tick => rfl
  | command w =>
    simp only [performed, bufferAfterWord]
    cases decodeWord w <;> rfl

/-- A run of one step more, where the first step answers a next state. -/
theorem run_succ {s s' : State} (h : step s = .next s') (k : Nat) :
    Host.Core.run Sys2Proof.core (k + 1) s = Host.Core.run Sys2Proof.core k s' := by
  have hc : Sys2Proof.core.step s = .next s' := h
  simp only [Host.Core.run, hc]

/-- Running over events performs them all, in order, and ends with none pending. -/
theorem runEvents_eq (es : List Event) (s : State) :
    runEvents es s = .next (setInputs [] (performedAll es s)) := by
  induction es generalizing s with
  | nil => rfl
  | cons e es ih =>
    have hr : runEvents (e :: es) s = runEvents es (performed e s) :=
      run_succ (step_setInputs_cons e es s) es.length
    rw [hr, ih]
    rfl

/-- Events in two parts. -/
theorem performedAll_append (es es' : List Event) (s : State) :
    performedAll (es ++ es') s = performedAll es' (performedAll es s) := by
  induction es generalizing s with
  | nil => rfl
  | cons e es ih => exact ih _

/-- What a served event does to each field but the buffer and the outputs. -/
theorem performed_frame (e : Event) (s : State) :
    (performed e s).params = s.params ∧ (performed e s).inputs = s.inputs ∧
      (performed e s).phase = s.phase + BitVec.ofNat 3 (tickCount [e]) := by
  cases e with
  | tick => simp [performed, advanced, nextPhase, tickCount]
  | command w =>
    simp only [performed, tickCount]
    cases decodeWord w <;> simp

/-- The ticks of two parts. -/
theorem tickCount_append (es es' : List Event) :
    tickCount (es ++ es') = tickCount es + tickCount es' := by
  induction es with
  | nil => simp [tickCount]
  | cons e es ih =>
    cases e with
    | tick => simp [tickCount, ih, Nat.add_right_comm]
    | command w => simpa [tickCount] using ih

/-- The ticks of `n` ticks. -/
theorem tickCount_replicate (n : Nat) : tickCount (List.replicate n .tick) = n := by
  induction n with
  | zero => rfl
  | succ n ih => simp [List.replicate_succ, tickCount, ih]

/-- What events do to each field but the buffer, the outputs and the mark. -/
theorem performedAll_frame (es : List Event) (s : State) :
    (performedAll es s).params = s.params ∧ (performedAll es s).inputs = s.inputs ∧
      (performedAll es s).phase = s.phase + BitVec.ofNat 3 (tickCount es) := by
  induction es generalizing s with
  | nil => simp [performedAll, tickCount]
  | cons e es ih =>
    obtain ⟨hp, hi, hq⟩ := ih (performed e s)
    obtain ⟨gp, gi, gq⟩ := performed_frame e s
    refine ⟨hp.trans gp, hi.trans gi, ?_⟩
    have ht : tickCount (e :: es) = tickCount [e] + tickCount es := tickCount_append [e] es
    rw [ht, BitVec.ofNat_add, ← BitVec.add_assoc, ← gq]
    exact hq

/-- What a tick leaves in the GPIO registers. -/
theorem advanced_outputs (s : State) :
    (advanced s).bpDir = 0b111111#6 ∧ (advanced s).selDir = 0b11111#5 ∧
      (advanced s).selOut = selPattern s.params.selEvenPolicy s.phase ∧
      (advanced s).bpOut = (drive s.params.selEvenPolicy s.phase s.buf).bp :=
  ⟨(drive_frame _ _ _).1, (drive_frame _ _ _).2.1, (drive_frame _ _ _).2.2, rfl⟩

/-- A word has an assigned `OP` exactly if it decodes. -/
theorem assigned_iff_decodes (w : CommandWord) : Assigned w ↔ ∃ i, decodeWord w = .ok i := by
  unfold decodeWord Assigned opSetg opSetn opSets
  split_ifs <;> simp_all

/-- A served command writes the buffer and nothing else. -/
theorem performed_command {w : CommandWord} (h : Assigned w) (s : State) :
    performed (.command w) s = writeBuf (bufferAfterWord s.params s.buf w) s := by
  obtain ⟨i, hi⟩ := (assigned_iff_decodes w).1 h
  simp [performed, hi]

/-- Served commands write the buffer and nothing else. -/
theorem performedAll_commands {ws : List CommandWord} (h : ∀ w ∈ ws, Assigned w) (s : State) :
    performedAll (ws.map .command) s = writeBuf (bufferAfterWords s.params s.buf ws) s := by
  induction ws generalizing s with
  | nil => rfl
  | cons w ws ih =>
    have hw : performed (.command w) s = writeBuf (bufferAfterWord s.params s.buf w) s :=
      performed_command (h w (by simp)) s
    simp only [List.map_cons, performedAll, hw]
    exact ih (fun w' hm => h w' (by simp [hm])) _

end Sys2Proof.Machine
end

