-- ==== Sys2Proof/Tests/Slice0.lean ====
section
/-! SUPPORT. Tests on fixed values, from 95_test_vectors.md and the encodings of 30_encoding.md, and for
every obligation with hypotheses a witness that meets them. -/

namespace Sys2Proof.Tests

open Sys2Proof.Machine

/-! ## WellFormed: the ill-formed terms the checks refuse (R83, R88) -/

theorem test_setn_above_range_illFormed : (Instr.setn 8388608).wellFormed = false := by decide
theorem test_setn_below_range_illFormed : (Instr.setn (-8388609)).wellFormed = false := by decide
theorem test_setn_bounds_wellFormed :
    (Instr.setn 8388607).wellFormed = true ∧ (Instr.setn (-8388608)).wellFormed = true := by decide

/-! ## Structural parameters (R8) against the types and operations -/

theorem test_structure :
    (pins State.reset).length = Config.nBp + Config.nSel + Config.nBallast ∧
    2 ^ 3 = Config.nPhase ∧ State.reset.buf.size = Config.nBuf ∧
    Config.nBuf * Config.sliceBits = Config.glyphBits ∧ Config.strLen = Config.nDigits := by decide

/-! ## Decoding: words written out from the fields of R81 to R84 -/

theorem test_decode_tick : decode .tick = .ok .advance := by decide
theorem test_decode_setg :
    decodeWord 0b00000001_00111111_00000110_01011011#32 = .ok (.setg 0x3F#8 0x06#8 0x5B#8) := by
  decide
theorem test_decode_setn :
    decodeWord 0b00000010_11111111_11111111_11111001#32 = .ok (.setn (-7)) := by decide
theorem test_decode_setn_high_bits :
    decodeWord 0b00000010_10000000_00000000_00000000#32 = .ok (.setn (-8388608)) := by decide
theorem test_decode_sets :
    decodeWord 0b00000011_00110100_00110010_00000000#32 = .ok (.sets 0x34#8 0x32#8 0x00#8) := by
  decide
theorem test_decode_reserved :
    decodeWord 0b00000100_00000000_00000000_00000000#32 = .error .reservedOpcode := by decide
theorem test_decode_reserved_zero : decodeWord 0x00000000#32 = .error .reservedOpcode := by decide
theorem test_tableWord_advance :
    decodeTableWord 8 1 = some .advance ∧ decodeTableWord 8 0 = none := by decide
theorem test_tableWord_command :
    decodeTableWord 32 0x02FFFFF9 = some (.setn (-7)) ∧ decodeTableWord 32 0xFF123456 = none := by
  decide

/-! ## One step of each operation -/

/-- A small state: a phase and a buffer, reset otherwise. -/
def stateAt (p : BitVec 3) (b : Buffer) : State := { State.reset with phase := p, buf := b }

/-- What a test looks at of an outcome. -/
def shows {α : Type} (f : State → α) : Host.Outcome State Fault Refusal → Option α
  | .next s => some (f s)
  | .fault _ => none
  | .refused _ => none

/-- The buffer of `SETN 42` in the vectors of 95_test_vectors.md. -/
def buf42 : Buffer := #v[0x0B#8, 0x06#8, 0x09#8, 0x05#8]

theorem test_advance_even :
    shows (fun s => (s.bpOut, s.selOut, s.phase)) (exec .advance (stateAt 2 buf42)) =
      some (0x39#6, 0x1D#5, 3#3) := by decide
theorem test_advance_wraps :
    shows (fun s => (s.bpOut, s.selOut, s.phase)) (exec .advance (stateAt 7 buf42)) =
      some (0x05#6, 0x08#5, 0#3) := by decide
theorem test_setg_slices :
    shows State.buf (exec (.setg 0xE4#8 0x1B#8 0xAA#8) State.reset) =
      some #v[0x0E#8, 0x1A#8, 0x26#8, 0x32#8] := by decide
theorem test_setn_negative :
    shows State.buf (exec (.setn (-7)) State.reset) =
      some #v[0x03#8, 0x01#8, 0x00#8, 0x10#8] := by decide
theorem test_setn_outOfRange :
    shows State.buf (exec (.setn (-100)) State.reset) =
      some #v[0x00#8, 0x00#8, 0x00#8, 0x15#8] := by decide
theorem test_sets_ends_at_nul :
    shows State.buf (exec (.sets 0x37#8 0x00#8 0x38#8) State.reset) =
      some #v[0x30#8, 0x10#8, 0x00#8, 0x00#8] := by decide
theorem test_sets_letter :
    glyphFor referenceParams 0x7A#8 = Config.alphaGlyph.get 25 := rfl
theorem test_reserved_sets_mark :
    shows (fun s => (s.refusal, s.buf)) (step (setInputs [.command 0x04000000#32] State.reset)) =
      some (some .reservedOpcode, #v[0x00#8, 0x00#8, 0x00#8, 0x00#8]) := by decide
theorem test_assemble_text :
    assemble "SETS \"HELLO\" ; cut to HEL\n TICKS 2".toList =
      some [.command 0x0348454C#32, .tick, .tick] := by decide
theorem test_assemble_range : assemble "SETN 8388608".toList = none := by decide

/-- A property of the one element of a list. -/
theorem forall_mem_one {α : Type} {P : α → Prop} {a : α} (h : P a) : ∀ x ∈ [a], P x := by
  simpa using h

/-- A property of the two elements of a list. -/
theorem forall_mem_two {α : Type} {P : α → Prop} {a b : α} (ha : P a) (hb : P b) :
    ∀ x ∈ [a, b], P x := by
  simp [ha, hb]

/-! ## Witnesses: the hypotheses of the obligations are met -/

theorem witness_PhaseCounterIsAdvancesAlone :
    (∃ t, step (setInputs [.tick] State.reset) = .next t ∧
      t.phase ≠ (setInputs [.tick] State.reset).phase) ∧
    Instr.setn 5 ≠ .advance := ⟨⟨_, rfl, by decide⟩, by decide⟩
theorem witness_AdvanceDrivesTheSelectedByte :
    (stateAt 0 buf42).buf[(stateAt 0 buf42).phase.toNat / 2]? = some 0x0B#8 ∧
    (stateAt 7 buf42).buf[(stateAt 7 buf42).phase.toNat / 2]? = some 0x05#8 := by decide
theorem witness_OddPhaseAssertsOneSelectLine :
    (stateAt 1 buf42).phase.toNat % 2 = 1 ∧ (stateAt 7 buf42).phase.toNat % 2 = 1 := by decide
theorem witness_EvenPhaseAssertsTheBallastLine :
    (stateAt 0 buf42).phase.toNat % 2 = 0 ∧ (stateAt 6 buf42).phase.toNat % 2 = 0 := by decide
theorem witness_BackplaneLinesShowTheSelectedByte :
    (stateAt 6 buf42).buf[(stateAt 6 buf42).phase.toNat / 2]? = some 0x05#8 := by decide
theorem witness_PolarityBalanceExactlyIfByteKept :
    (stateAt 2 buf42).phase.toNat % 2 = 0 ∧ (∀ w ∈ [0x0200002A#32, 0x02FFFFF9#32], Assigned w) ∧
    (stateAt 2 buf42).buf[(stateAt 2 buf42).phase.toNat / 2]? = some 0x06#8 ∧
    (bufferAfterWords (stateAt 2 buf42).params (stateAt 2 buf42).buf
      [0x0200002A#32, 0x02FFFFF9#32])[(stateAt 2 buf42).phase.toNat / 2]? = some 0x01#8 :=
  ⟨by decide, forall_mem_two (by decide) (by decide), by decide, by decide⟩
theorem witness_SelectGroupIsAlwaysBalanced :
    (stateAt 4 buf42).phase.toNat % 2 = 0 ∧
    (stateAt 4 buf42).params.selEvenPolicy = .complement ∧
    (∀ w ∈ [0x01FF00FF#32], Assigned w) :=
  ⟨by decide, by decide, forall_mem_one (by decide)⟩
theorem witness_EachPhaseIsDrivenOncePerFrame :
    ∃ t, runEvents (List.replicate 7 .tick) State.reset = .next t ∧ t.phase = 7#3 :=
  ⟨_, rfl, by decide⟩
theorem witness_EveryByteReachesThePinsWithinSevenTicks :
    (stateAt 7 buf42).buf[(3#2).toNat]? = some 0x05#8 := by decide
theorem witness_PackUnpackAreInverse : PadClear buf42 := by decide
theorem witness_DigitDecomposition :
    999 ≤ 999 ∧ 999 = 100 * (Digits.mk 9 9 9).h.val + 10 * (Digits.mk 9 9 9).t.val +
      (Digits.mk 9 9 9).u.val := by decide
theorem witness_SetnRendersTheValue :
    (-99 ≤ (-99 : Int) ∧ (-99 : Int) ≤ 999 ∧
      State.reset.params.digitGlyph[(-99 : Int).natAbs / 100]? = some 0x3F#8 ∧
      State.reset.params.digitGlyph[(-99 : Int).natAbs / 10 % 10]? = some 0x6F#8 ∧
      State.reset.params.digitGlyph[(-99 : Int).natAbs % 10]? = some 0x6F#8) ∧
    (-99 ≤ (999 : Int) ∧ (999 : Int) ≤ 999 ∧
      State.reset.params.digitGlyph[(999 : Int).natAbs / 100]? = some 0x6F#8 ∧
      State.reset.params.digitGlyph[(999 : Int).natAbs / 10 % 10]? = some 0x6F#8 ∧
      State.reset.params.digitGlyph[(999 : Int).natAbs % 10]? = some 0x6F#8) ∧
    ((-100 : Int) < -99 ∨ 999 < (-100 : Int)) ∧ ((1000 : Int) < -99 ∨ 999 < (1000 : Int)) := by
  decide
theorem witness_SetnBufferTellsTheValue :
    (0x00#8 :: State.reset.params.dashGlyph :: State.reset.params.digitGlyph.toList).Nodup ∧
    (stateAt 3 buf42).params = State.reset.params ∧
    ∃ t u, exec (.setn (-99)) State.reset = .next t ∧
      exec (.setn (-99)) (stateAt 3 buf42) = .next u ∧ t.buf = u.buf :=
  ⟨by decide, rfl, _, _, rfl, rfl, rfl⟩
theorem witness_SetsRendersUpToTheFirstNul :
    ((0x00#8 : CharCode) = 0) ∧ ((0x37#8 : CharCode) ≠ 0 ∧ (0x00#8 : CharCode) = 0) ∧
    ((0xFF#8 : CharCode) ≠ 0 ∧ (0x01#8 : CharCode) ≠ 0) := by decide
theorem witness_GlyphTableLookup :
    (0x30#8 : CharCode).toNat = 0x30 + (0 : Fin 10).val ∧
    (0x39#8 : CharCode).toNat = 0x30 + (9 : Fin 10).val ∧
    (0x41#8 : CharCode).toNat = 0x41 + (0 : Fin 26).val ∧
    (0x5A#8 : CharCode).toNat = 0x41 + (25 : Fin 26).val ∧
    (0x61#8 : CharCode).toNat = 0x61 + (0 : Fin 26).val ∧
    (0x7A#8 : CharCode).toNat = 0x61 + (25 : Fin 26).val ∧
    ∀ c ∈ [0x2F#8, 0x3A#8, 0x40#8, 0x5B#8, 0x60#8, 0x7B#8, 0xB0#8],
      (c.toNat < 0x30 ∨ (0x39 < c.toNat ∧ c.toNat < 0x41) ∨
        (0x5A < c.toNat ∧ c.toNat < 0x61) ∨ 0x7A < c.toNat) := by decide
theorem witness_MiddleBarOfTheDigits : State.reset.params.Legal := by decide
theorem witness_CommandsReplaceTheBufferOnly :
    Instr.setg 0xFF#8 0x00#8 0x80#8 ≠ .advance ∧ Instr.setn (-7) ≠ .advance ∧
    Instr.sets 0x34#8 0x32#8 0x00#8 ≠ .advance ∧
    (stateAt 7 buf42).params = referenceParams := ⟨by decide, by decide, by decide, rfl⟩
theorem witness_DecodeOfEncode :
    (Instr.setn (-8388608)).wellFormed = true ∧ (Instr.setn 8388607).wellFormed = true ∧
    Instr.advance.wellFormed = true ∧ (Instr.setg 0xFF#8 0x00#8 0x80#8).wellFormed = true ∧
    (Instr.sets 0x34#8 0x32#8 0x00#8).wellFormed = true := by decide
theorem witness_EncodeOfDecode : decodeWord 0x02FFFFF9#32 = .ok (.setn (-7)) := by decide
theorem witness_StepPerformsTheDecodedEvent :
    (setInputs [.command 0x0200002A#32, .tick] State.reset).inputs =
      [.command 0x0200002A#32, .tick] ∧
    decode (.command 0x0200002A#32) = .ok (.setn 42) := by decide
theorem witness_DeliveredWordRunsNext : decodeTableWord 32 0x03343200 =
    some (.sets 0x34#8 0x32#8 0x00#8) ∧ decodeTableWord 8 1 = some .advance ∧
    portEvent 8 1 = some .tick ∧ portEvent 9 1 = some (.command 0x00000001#32) ∧
    portEvent 8 0 = none := by decide
theorem witness_ReservedWordSetsTheMarkOnly :
    (setInputs [.command 0x04000000#32] State.reset).inputs = [.command 0x04000000#32] ∧
    ¬Assigned 0x04000000#32 ∧ ¬Assigned 0x00FFFFFF#32 := by decide
theorem witness_IdleStepChangesNothing : State.reset.inputs = [] := rfl
theorem witness_EveryInterleavingPerformsAllEvents :
    Interleaves 1 [0x02000000#32] [.tick, .command 0x02000000#32] ∧
    Interleaves 1 [0x02000000#32] [.command 0x02000000#32, .tick] ∧
    (∀ w ∈ [0x02000000#32], Assigned w) :=
  ⟨.tick (.command _ .done), .command _ (.tick .done), forall_mem_one (by decide)⟩
theorem witness_TickDrivesTheBufferOfTheCommandsBefore :
    Interleaves 1 [0x0200002A#32] [.command 0x0200002A#32, .tick] ∧
    (∀ w ∈ [0x0200002A#32], Assigned w) ∧
    (bufferAfterWords State.reset.params State.reset.buf [0x0200002A#32])[
      ((State.reset.phase.toNat + 1) % 8) / 2]? = some 0x0B#8 :=
  ⟨.command _ (.tick .done), forall_mem_one (by decide), by decide⟩
theorem witness_PinsHoldBetweenTicks :
    tickCount [.command 0x0200002A#32, .command 0x01FFFFFF#32] = 0 ∧
    ∀ e ∈ [Event.command 0x0200002A#32, .command 0x01FFFFFF#32], Served e :=
  ⟨rfl, forall_mem_two (P := Served) (.inr (.inl (by decide))) (.inl (by decide))⟩
theorem witness_PinsAreUndrivenBeforeTheFirstTick :
    tickCount [.command 0x03370000#32] = 0 ∧
    ∀ e ∈ [Event.command 0x03370000#32], Served e :=
  ⟨rfl, forall_mem_one (P := Served) (.inr (.inr (by decide)))⟩
theorem witness_DirectionsStayAllOnesAfterATick :
    0 < tickCount [.tick, .command 0x0200002A#32] ∧
    ∀ e ∈ [Event.tick, .command 0x0200002A#32], Served e :=
  ⟨by decide, forall_mem_two (P := Served) trivial (.inr (.inl (by decide)))⟩
theorem witness_StepKeepsTheOutputs :
    OutputsInv State.reset ∧
    OutputsInv { stateAt 1 buf42 with bpDir := 0x3F#6, selDir := 0x1F#5, selOut := 0x1E#5 } ∧
    (∃ t, step State.reset = .next t) ∧
    (∀ es, (setInputs [.command 0x01FFFFFF#32] (stateAt 1 buf42)).inputs ≠ .tick :: es) ∧
    ∃ t, step (setInputs [.command 0x01FFFFFF#32] (stateAt 1 buf42)) = .next t :=
  ⟨.inl (by decide), .inr (by decide), ⟨_, rfl⟩, by simp, _, rfl⟩
theorem witness_StepKeepsThePadClear :
    PadClear (setInputs [.command 0x01FFFFFF#32] State.reset).buf ∧ Assigned 0x01FFFFFF#32 ∧
    ∃ t, step (setInputs [.command 0x01FFFFFF#32] State.reset) = .next t :=
  ⟨by decide, by decide, _, rfl⟩
theorem witness_StepKeepsTheParameters :
    ∃ t, step (setInputs [.tick] State.reset) = .next t := ⟨_, rfl⟩
theorem witness_PadBitsNeverReachThePins :
    PadEquiv (stateAt 0 #v[0xC3#8, 0, 0, 0]) (stateAt 0 #v[0x03#8, 0, 0, 0]) :=
  ⟨by decide, rfl, rfl, rfl, rfl, rfl, rfl, rfl, rfl⟩
theorem witness_WriterCannotDisturbTheDrive :
    Interleaves 1 [0x0200002A#32] [.command 0x0200002A#32, .tick] ∧ Interleaves 1 [] [.tick] ∧
    (∀ w ∈ [0x0200002A#32], Assigned w) ∧ (∀ w ∈ ([] : List CommandWord), Assigned w) ∧
    DriveEquiv (stateAt 5 buf42) (stateAt 5 #v[0, 0, 0, 0]) :=
  ⟨.command _ (.tick .done), .tick .done, forall_mem_one (by decide), by simp, rfl, rfl, rfl, rfl, rfl⟩
theorem witness_SelOutTakesOnlyTheListedValues :
    (stateAt 6 buf42).params.selEvenPolicy = .complement ∧
    ({ stateAt 6 buf42 with
        params := { referenceParams with selEvenPolicy := .ballastOnly } } : State
      ).params.selEvenPolicy = .ballastOnly := by decide

end Sys2Proof.Tests
end

/-! PROOF. `PHASE` (10_state.md R34): what each event and each operation does to it. -/

namespace Sys2Proof.Machine

/-- `PHASE` after events counts the ticks among them, modulo 8. -/
theorem performedAll_phase (es : List Event) (s : State) :
    (performedAll es s).phase = s.phase + BitVec.ofNat 3 (tickCount es) := by
  obtain ⟨-, -, hphase⟩ := performedAll_frame es s
  exact hphase

/-- A command word, assigned or reserved, keeps `PHASE`. -/
theorem performed_command_phase (w : CommandWord) (s : State) :
    (performed (.command w) s).phase = s.phase := by
  obtain ⟨-, -, hphase⟩ := performed_frame (.command w) s
  simpa [tickCount] using hphase

/-- Every operation answers a next state. -/
theorem exists_exec_eq_next (i : Instr) (s : State) : ∃ t, exec i s = .next t := by
  cases i with
  | advance => exact ⟨_, rfl⟩
  | setg g1 g2 g3 => exact ⟨_, rfl⟩
  | setn v => exact ⟨_, rfl⟩
  | sets c1 c2 c3 => exact ⟨_, rfl⟩

/-- `q` ticks from reset take `PHASE` to `q`. -/
theorem runEvents_ticks_resetWith (p : Params) (q : BitVec 3) :
    ∃ t, runEvents (List.replicate q.toNat .tick) (State.resetWith p) = .next t ∧ t.phase = q := by
  refine ⟨_, runEvents_eq _ _, ?_⟩
  rw [setInputs_phase, performedAll_phase, tickCount_replicate, resetWith_phase]
  simp

/-- A step that changes `PHASE` takes a tick. -/
theorem inputs_eq_tick_cons_of_phase_ne {s t : State} (hstep : step s = .next t)
    (hne : t.phase ≠ s.phase) : ∃ es, s.inputs = .tick :: es := by
  obtain ⟨-, rfl⟩ | ⟨e, es, hinputs, rfl⟩ := step_cases hstep
  · exact absurd rfl hne
  · cases e with
    | tick => exact ⟨es, hinputs⟩
    | command w => exact absurd (performed_command_phase w s) hne

/-- An operation other than `ADVANCE` keeps `PHASE`, and gives the same next state but for `PHASE`
whatever `PHASE` holds. -/
theorem exec_phase_irrelevant {i : Instr} (hi : i ≠ .advance) (s : State) (q : BitVec 3) :
    ∃ t, exec i s = .next t ∧ t.phase = s.phase ∧
      exec i { s with phase := q } = .next { t with phase := q } := by
  obtain ⟨t, ht⟩ := exists_exec_eq_next i s
  obtain ⟨hadvance, -⟩ | ⟨-, g, rfl, hsame⟩ := exec_cases ht
  · exact absurd hadvance hi
  · exact ⟨_, ht, writeBuf_phase _ _, hsame { s with phase := q } rfl⟩

/-- Settles O2: each clause is one of the facts about `PHASE` above. -/
theorem phaseCounterIsAdvancesAlone : Obligations.PhaseCounterIsAdvancesAlone :=
  ⟨resetWith_phase, runEvents_ticks_resetWith,
    fun _ _ => inputs_eq_tick_cons_of_phase_ne,
    fun _ s q hi => exec_phase_irrelevant hi s q⟩

end Sys2Proof.Machine

/-! PROOF. The display state encoder (41_encoder.md): what `SETG`, `SETN` and `SETS` leave in `BUF`,
and what they leave unchanged. -/

namespace Sys2Proof.Machine

/-! ## The frame of the three commands (R136) -/

/-- The pins do not depend on `BUF`. -/
theorem pins_writeBuf (b : Buffer) (s : State) : pins (writeBuf b s) = pins s := rfl

/-- For each choice of the parameters, an operation other than `ADVANCE` writes one packed value, the
same in every state. -/
theorem exists_exec_eq_writeBuf_pack {i : Instr} (hi : i ≠ .advance) (p : Params) :
    ∃ g : GlyphTriple, ∀ s : State, s.params = p → exec i s = .next (writeBuf (pack g) s) := by
  obtain ⟨t, ht⟩ := exists_exec_eq_next i (State.resetWith p)
  obtain ⟨hadvance, -⟩ | ⟨-, g, -, hsame⟩ := exec_cases ht
  · exact absurd hadvance hi
  · exact ⟨g, hsame⟩

/-- Settles O24: the value is the one the command writes right after reset. -/
theorem commandsReplaceTheBufferOnly : Obligations.CommandsReplaceTheBufferOnly := by
  intro i p hi
  obtain ⟨g, hg⟩ := exists_exec_eq_writeBuf_pack hi p
  exact ⟨pack g, fun s hs => ⟨hg s hs, pins_writeBuf (pack g) s⟩⟩

/-! ## `SETG` as delivered on the command port (R122, R123) -/

section fields

variable (op a b c : BitVec 8)

/-- Field `A` of an `OP` and three bytes is the first of them. -/
theorem fieldA_append3 : fieldA (op ++ a ++ b ++ c) = a :=
  (extract_append_high (op ++ a ++ b) c 8 8).trans
    ((extract_append_high (op ++ a) b 0 8).trans
      ((extract_append_low op a 0 8 (by omega)).trans BitVec.extractLsb'_eq_self))

/-- Field `B` of an `OP` and three bytes is the second of them. -/
theorem fieldB_append3 : fieldB (op ++ a ++ b ++ c) = b :=
  (extract_append_high (op ++ a ++ b) c 0 8).trans
    ((extract_append_low (op ++ a) b 0 8 (by omega)).trans BitVec.extractLsb'_eq_self)

/-- Field `C` of an `OP` and three bytes is the third of them. -/
theorem fieldC_append3 : fieldC (op ++ a ++ b ++ c) = c :=
  (extract_append_low (op ++ a ++ b) c 0 8 (by omega)).trans BitVec.extractLsb'_eq_self

end fields

/-- The word of `SETG` decodes to it. -/
theorem decodeWord_setg (g1 g2 g3 : Glyph) :
    decodeWord (opSetg ++ g1 ++ g2 ++ g3) = .ok (.setg g1 g2 g3) := by
  have hop : fieldOp (opSetg ++ g1 ++ g2 ++ g3) = opSetg :=
    Laws.EncodedOnItsPort.fieldOp_append3 opSetg g1 g2 g3
  simp only [decodeWord, hop, if_true, fieldA_append3, fieldB_append3, fieldC_append3]

/-- `SETG` delivered as its command word packs its glyphs into `BUF`. -/
theorem performed_encode_setg (g1 g2 g3 : Glyph) (s : State) :
    performed (encode (.setg g1 g2 g3)) s = writeBuf (pack ⟨g1, g2, g3⟩) s := by
  simp only [encode, performed, bufferAfterWord, decodeWord_setg]

/-- After events of which `SETG` is the last, `BUF` holds its packed glyphs, whatever came before. -/
theorem performedAll_append_setg_buf (es : List Event) (g1 g2 g3 : Glyph) (s : State) :
    (performedAll (es ++ [encode (.setg g1 g2 g3)]) s).buf = pack ⟨g1, g2, g3⟩ := by
  rw [performedAll_append, performedAll, performedAll, performed_encode_setg, writeBuf_buf]

/-- Settles O15: `SETG` is the last event of both runs, and the last `SETG` alone sets `BUF`. -/
theorem setgIsIdempotent : Obligations.SetgIsIdempotent := by
  intro s g1 g2 g3 n
  refine ⟨_, _, runEvents_eq _ s, runEvents_eq _ s, ?_⟩
  have hone := performedAll_append_setg_buf [] g1 g2 g3 s
  have htwo := performedAll_append_setg_buf
    (encode (.setg g1 g2 g3) :: List.replicate n .tick) g1 g2 g3 s
  exact htwo.trans hone.symm

/-! ## The digits of a number (R124) -/

/-- The digits of `m` sum to `m`, each at its place value. -/
theorem decompose_sum (m : Nat) (hm : m ≤ 999) :
    m = 100 * (decompose m hm).h.val + 10 * (decompose m hm).t.val + (decompose m hm).u.val := by
  simp only [decompose]
  omega

/-- Digits that sum to `m`, each at its place value, are those of `m`. -/
theorem eq_decompose_of_sum {m : Nat} (hm : m ≤ 999) (d : Digits)
    (hsum : m = 100 * d.h.val + 10 * d.t.val + d.u.val) : d = decompose m hm := by
  obtain ⟨h, t, u⟩ := d
  simp only [decompose, Digits.mk.injEq, Fin.ext_iff]
  simp only at hsum
  omega

/-- Settles O16. -/
theorem digitDecomposition : Obligations.DigitDecomposition :=
  fun m hm => ⟨rfl, rfl, rfl, decompose_sum m hm, eq_decompose_of_sum hm⟩

/-! ## `SETN` (R125, R127 to R130) -/

/-- The hundreds digit is shown from 100 up. -/
theorem decompose_h_ne_zero_iff {m : Nat} (hm : m ≤ 999) :
    (decompose m hm).h ≠ 0 ↔ 100 ≤ m := by
  simp only [decompose, ne_eq, Fin.ext_iff, Fin.val_zero]
  omega

/-- The tens digit is shown from 10 up. -/
theorem decompose_h_or_t_ne_zero_iff {m : Nat} (hm : m ≤ 999) :
    ((decompose m hm).h ≠ 0 ∨ (decompose m hm).t ≠ 0) ↔ 10 ≤ m := by
  simp only [decompose, ne_eq, Fin.ext_iff, Fin.val_zero]
  omega

/-- A digit's glyph through the list-style lookup. -/
theorem digitGlyph_get_eq {p : Params} {d : Fin 10} {g : Glyph}
    (h : p.digitGlyph[d.val]? = some g) : p.digitGlyph.get d = g := by
  rw [Vector.getElem?_eq_getElem d.isLt] at h
  exact Option.some.inj h

/-- The glyphs of a sign and a magnitude, with each condition on a digit read as one on the
magnitude. -/
theorem inRangeGlyphs_decompose {p : Params} {neg : Bool} {m : Nat} (hm : m ≤ 999)
    {gh gt gu : Glyph} (hgh : p.digitGlyph[m / 100]? = some gh)
    (hgt : p.digitGlyph[m / 10 % 10]? = some gt) (hgu : p.digitGlyph[m % 10]? = some gu) :
    inRangeGlyphs p neg (decompose m hm) =
      ⟨if neg then p.dashGlyph else if 100 ≤ m then gh else blankGlyph,
        if 10 ≤ m then gt else blankGlyph, gu⟩ := by
  have hh : p.digitGlyph.get (decompose m hm).h = gh := digitGlyph_get_eq hgh
  have ht : p.digitGlyph.get (decompose m hm).t = gt := digitGlyph_get_eq hgt
  have hu : p.digitGlyph.get (decompose m hm).u = gu := digitGlyph_get_eq hgu
  simp only [inRangeGlyphs, decompose_h_or_t_ne_zero_iff, hh, ht, hu]
  simp only [decompose_h_ne_zero_iff]

/-- `SETN` writes its packed glyphs and nothing else. -/
theorem exec_setn (v : Int) (s : State) :
    exec (.setn v) s = .next (writeBuf (pack (numericGlyphs s.params v)) s) := rfl

/-- Settles O17: the range test decides between the digits and the three dashes. -/
theorem setnRendersTheValue : Obligations.SetnRendersTheValue := by
  constructor
  case left =>
    intro s v gh gt gu hmin hmax hgh hgt hgu
    have hr : ¬(v > 999 ∨ v < -99) := by omega
    rw [exec_setn, numericGlyphs_inRange _ hr, inRangeGlyphs_decompose _ hgh hgt hgu]
    simp only [decide_eq_true_eq]
    rfl
  case right =>
    intro s v hout
    rw [exec_setn, numericGlyphs_outOfRange _ hout.symm]
    rfl

end Sys2Proof.Machine

/-! PROOF. The multiplex driver (42_driver.md): the phase an `ADVANCE` moves to and the select group it
drives on an odd phase. -/

namespace Sys2Proof.Machine

/-- `ADVANCE` answers the advanced state, whatever the state. -/
theorem exec_advance (s : State) : exec .advance s = .next (advanced s) := rfl

/-! ## The phase transition (R151) -/

/-- The phase as a number moves on by one modulo 8. -/
theorem nextPhase_toNat (p : BitVec 3) : (nextPhase p).toNat = (p.toNat + 1) % 8 :=
  BitVec.toNat_add p 1#3

/-- `ADVANCE` leaves the next phase. -/
theorem advanced_phase (s : State) : (advanced s).phase = nextPhase s.phase := rfl

/-- Settles O4: the wrap is that of 3-bit addition. -/
theorem phaseAdvancesByOneModuloEight : Obligations.PhaseAdvancesByOneModuloEight := by
  refine ⟨resetWith_phase referenceParams, fun s => ⟨advanced s, exec_advance s, ?_⟩⟩
  rw [advanced_phase, nextPhase_toNat]

/-! ## The select group on an odd phase (R154) -/

/-- The select bit is the power of two of its line's number. -/
theorem selectBit_eq_twoPow (q : BitVec 2) : selectBit q = BitVec.twoPow 4 q.toNat :=
  (BitVec.twoPow_eq 4 q.toNat).symm

/-- Line `i` of the select bit is 1 exactly if `i` is the selected line. -/
theorem selectBit_getLsbD (q : BitVec 2) (i : Nat) :
    (selectBit q).getLsbD i = decide (i = q.toNat) := by
  have hq : q.toNat < 4 := q.isLt
  simp only [selectBit_eq_twoPow, BitVec.getLsbD_twoPow, hq, decide_true, Bool.true_and, eq_comm]

/-- A select line of the odd-phase group is the select bit's. -/
theorem oddSel_getLsbD_of_lt (q : BitVec 2) {i : Nat} (hi : i < 4) :
    (oddSel q).getLsbD i = decide (i = q.toNat) := by
  rw [oddSel, BitVec.getLsbD_append, if_pos hi, selectBit_getLsbD]

/-- The ballast line of the odd-phase group is deasserted. -/
theorem oddSel_ballast (q : BitVec 2) : (oddSel q).getLsbD 4 = false := by
  rw [oddSel, BitVec.getLsbD_append, if_neg (Nat.lt_irrefl 4)]
  rfl

/-- On an odd phase the pattern is the phase's select bit, whatever the policy. -/
theorem selPattern_odd (policy : SelEvenPolicy) {p : BitVec 3} (h : p.toNat % 2 = 1) :
    selPattern policy p = oddSel (select p) :=
  if_pos ((polarity_eq_one_iff p).2 h)

/-- `ADVANCE` on an odd phase drives the select bit of the phase before advancing. -/
theorem advanced_selOut_odd {s : State} (h : s.phase.toNat % 2 = 1) :
    (advanced s).selOut = oddSel (select s.phase) := by
  obtain ⟨-, -, hsel, -⟩ := advanced_outputs s
  exact hsel.trans (selPattern_odd _ h)

/-- Settles O6: the group of an odd phase by value, then line by line. -/
theorem oddPhaseAssertsOneSelectLine : Obligations.OddPhaseAssertsOneSelectLine := by
  intro s hodd
  refine ⟨advanced s, exec_advance s, ?_⟩
  rw [advanced_selOut_odd hodd, ← select_toNat]
  exact ⟨rfl, fun i hi => oddSel_getLsbD_of_lt _ hi, oddSel_ballast _⟩

end Sys2Proof.Machine

/-! PROOF. The encoding (30_encoding.md): the command word's fields, what each word decodes to, that
decoder and encoder are inverse, and the assembler's ranges. -/

namespace Sys2Proof

open Sys2Proof.Machine

/-! ## A word is its fields (R81 to R83) -/

/-- The fields of format G are the whole word. -/
theorem fields_append3 (w : CommandWord) : fieldOp w ++ fieldA w ++ fieldB w ++ fieldC w = w :=
  calc fieldOp w ++ fieldA w ++ fieldB w ++ fieldC w
      = w.extractLsb' 16 16 ++ fieldB w ++ fieldC w := by
        rw [fieldOp, fieldA, BitVec.extractLsb'_append_extractLsb'_eq_extractLsb' (by rfl)]
    _ = w.extractLsb' 8 24 ++ fieldC w := by
        rw [fieldB, BitVec.extractLsb'_append_extractLsb'_eq_extractLsb' (by rfl)]
    _ = w.extractLsb' 0 32 := by
        rw [fieldC, BitVec.extractLsb'_append_extractLsb'_eq_extractLsb' (by rfl)]
    _ = w := BitVec.extractLsb'_eq_self

/-- The fields of format N are the whole word. -/
theorem fields_append24 (w : CommandWord) : fieldOp w ++ fieldImm24 w = w :=
  (BitVec.extractLsb'_append_extractLsb'_eq_extractLsb' rfl).trans BitVec.extractLsb'_eq_self

/-- `OP` as a number is the word's top byte. -/
theorem fieldOp_toNat (w : CommandWord) : (fieldOp w).toNat = w.toNat / 2 ^ 24 := by
  have hlt : w.toNat < 2 ^ 32 := w.isLt
  rw [fieldOp, BitVec.extractLsb'_toNat, Nat.shiftRight_eq_div_pow]
  omega

/-- Field `IMM24` of an `OP` and 24 bits is those bits. -/
theorem fieldImm24_append24 (op : BitVec 8) (v : BitVec 24) : fieldImm24 (op ++ v) = v :=
  (extract_append_low op v 0 24 (by omega)).trans BitVec.extractLsb'_eq_self

/-! ## The decoder by `OP` (R84, R86) -/

/-- What a word decodes to, one case for each assigned `OP` and one for the reserved ones. -/
theorem decodeWord_cases (w : CommandWord) :
    (fieldOp w = opSetg ∧ decodeWord w = .ok (.setg (fieldA w) (fieldB w) (fieldC w))) ∨
      (fieldOp w = opSetn ∧ decodeWord w = .ok (.setn (fieldImm24 w).toInt)) ∨
      (fieldOp w = opSets ∧ decodeWord w = .ok (.sets (fieldA w) (fieldB w) (fieldC w))) ∨
      (¬Assigned w ∧ decodeWord w = .error .reservedOpcode) := by
  by_cases hg : fieldOp w = opSetg
  · exact .inl ⟨hg, by rw [decodeWord, if_pos hg]⟩
  by_cases hn : fieldOp w = opSetn
  · exact .inr (.inl ⟨hn, by rw [decodeWord, if_neg hg, if_pos hn]⟩)
  by_cases hs : fieldOp w = opSets
  · exact .inr (.inr (.inl ⟨hs, by rw [decodeWord, if_neg hg, if_neg hn, if_pos hs]⟩))
  · refine .inr (.inr (.inr ⟨?_, by rw [decodeWord, if_neg hg, if_neg hn, if_neg hs]⟩))
    rintro (h | h | h)
    exacts [hg h, hn h, hs h]

/-- A reserved word decodes to nothing. -/
theorem decodeWord_reserved {w : CommandWord} (h : ¬Assigned w) :
    decodeWord w = .error .reservedOpcode := by
  obtain ⟨hop, -⟩ | ⟨hop, -⟩ | ⟨hop, -⟩ | ⟨-, hd⟩ := decodeWord_cases w
  · exact absurd (.inl hop) h
  · exact absurd (.inr (.inl hop)) h
  · exact absurd (.inr (.inr hop)) h
  · exact hd

/-! ## Decoder and encoder are inverse (R85) -/

/-- The word of `SETN` with an operand in range decodes to it. -/
theorem decodeWord_setn {v : Int} (hmin : -8388608 ≤ v) (hmax : v ≤ 8388607) :
    decodeWord (opSetn ++ BitVec.ofInt 24 v) = .ok (.setn v) := by
  have hop : fieldOp (opSetn ++ BitVec.ofInt 24 v) = opSetn :=
    Laws.EncodedOnItsPort.fieldOp_append24 _ _
  have hv : (BitVec.ofInt 24 v).toInt = v :=
    BitVec.toInt_ofInt_eq_self (by omega) (by omega) (by omega)
  rw [decodeWord, hop, if_neg (by decide), if_pos rfl, fieldImm24_append24, hv]

/-- The word of `SETS` decodes to it. -/
theorem decodeWord_sets (c1 c2 c3 : CharCode) :
    decodeWord (opSets ++ c1 ++ c2 ++ c3) = .ok (.sets c1 c2 c3) := by
  have hop : fieldOp (opSets ++ c1 ++ c2 ++ c3) = opSets :=
    Laws.EncodedOnItsPort.fieldOp_append3 _ _ _ _
  rw [decodeWord, hop, if_neg (by decide), if_neg (by decide), if_pos rfl, fieldA_append3,
    fieldB_append3, fieldC_append3]

/-- `SETN` is well formed exactly within its range. -/
theorem wellFormed_setn_iff (v : Int) :
    (Instr.setn v).wellFormed = true ↔ -8388608 ≤ v ∧ v ≤ 8388607 :=
  decide_eq_true_iff

/-- Settles O25, operation by operation. -/
theorem decodeOfEncode : Obligations.DecodeOfEncode := by
  intro i hwf
  cases i with
  | advance => rfl
  | setg g1 g2 g3 => exact decodeWord_setg g1 g2 g3
  | setn v =>
    obtain ⟨hmin, hmax⟩ := (wellFormed_setn_iff v).1 hwf
    exact decodeWord_setn hmin hmax
  | sets c1 c2 c3 => exact decodeWord_sets c1 c2 c3

/-- The operand that `SETN` takes from 24 bits is in range. -/
theorem wellFormed_setn_toInt (x : BitVec 24) : (Instr.setn x.toInt).wellFormed = true :=
  (wellFormed_setn_iff _).2 ⟨BitVec.le_toInt x, BitVec.toInt_le⟩

/-- Settles O26: the word is put together again from the fields the decoder read. -/
theorem encodeOfDecode : Obligations.EncodeOfDecode := by
  intro w i hi
  obtain ⟨hop, hd⟩ | ⟨hop, hd⟩ | ⟨hop, hd⟩ | ⟨-, hd⟩ := decodeWord_cases w
  case inl =>
    obtain rfl := Except.ok.inj (hd.symm.trans hi)
    rw [encode, ← hop, fields_append3]
    exact ⟨rfl, rfl⟩
  case inr.inl =>
    obtain rfl := Except.ok.inj (hd.symm.trans hi)
    rw [encode, BitVec.ofInt_toInt, ← hop, fields_append24]
    exact ⟨rfl, wellFormed_setn_toInt _⟩
  case inr.inr.inl =>
    obtain rfl := Except.ok.inj (hd.symm.trans hi)
    rw [encode, ← hop, fields_append3]
    exact ⟨rfl, rfl⟩
  case inr.inr.inr =>
    rw [hd] at hi
    nomatch hi

/-- A word is assigned exactly if its top byte is 1, 2 or 3. -/
theorem assigned_iff_topByte (w : CommandWord) :
    Assigned w ↔ w.toNat / 2 ^ 24 = 1 ∨ w.toNat / 2 ^ 24 = 2 ∨ w.toNat / 2 ^ 24 = 3 := by
  simp only [Assigned, ← fieldOp_toNat, ← BitVec.toNat_inj, BitVec.toNat_ofNat]

/-- Settles O27: the cases of the decoder, with `OP` read as the top byte. -/
theorem opcodeMapPartitionsTheWords : Obligations.OpcodeMapPartitionsTheWords := by
  intro w
  rw [← fieldOp_toNat]
  obtain ⟨hop, hd⟩ | ⟨hop, hd⟩ | ⟨hop, hd⟩ | ⟨hreserved, hd⟩ := decodeWord_cases w
  · exact .inl ⟨by rw [hop]; rfl, _, _, _, hd⟩
  · exact .inr (.inl ⟨by rw [hop]; rfl, _, hd⟩)
  · exact .inr (.inr (.inl ⟨by rw [hop]; rfl, _, _, _, hd⟩))
  · rw [assigned_iff_topByte, ← fieldOp_toNat] at hreserved
    exact .inr (.inr (.inr ⟨by omega, hd⟩))

/-! ## The assembler's operand ranges (R88, R89) -/

/-- A byte operand is an error exactly outside 0..255. -/
theorem byteOperand_eq_none_iff (v : Int) : byteOperand v = none ↔ ¬(0 ≤ v ∧ v ≤ 255) := by
  rw [byteOperand, ite_eq_right_iff]
  simp only [reduceCtorEq, imp_false]

/-- An operation is an error exactly if it is not well formed. -/
theorem assembleInstr_eq_none_iff (i : Instr) : assembleInstr i = none ↔ ¬i.wellFormed = true := by
  rw [assembleInstr, ite_eq_right_iff]
  simp only [reduceCtorEq, imp_false]

/-- `SETN` is an error exactly outside its range. -/
theorem assembleOp_setn_eq_none_iff (v : Int) :
    assembleOp (.setn v) = none ↔ v < -8388608 ∨ 8388607 < v := by
  rw [assembleOp, assembleInstr_eq_none_iff, wellFormed_setn_iff]
  omega

/-- If no three values are those of the three operands, one operand is an error. -/
theorem byteOperand_eq_none_of_no_values {x y z : Int}
    (h : ∀ b1 b2 b3, byteOperand x = some b1 → byteOperand y = some b2 →
      byteOperand z = some b3 → False) :
    byteOperand x = none ∨ byteOperand y = none ∨ byteOperand z = none := by
  by_contra hall
  simp only [not_or, ← ne_eq, Option.ne_none_iff_exists'] at hall
  obtain ⟨⟨b1, hx⟩, ⟨b2, hy⟩, ⟨b3, hz⟩⟩ := hall
  exact h b1 b2 b3 hx hy hz

/-- `SETG` is an error exactly if one of its byte operands is. -/
theorem assembleOp_setg_eq_none_iff (x y z : Int) :
    assembleOp (.setg x y z) = none ↔
      byteOperand x = none ∨ byteOperand y = none ∨ byteOperand z = none := by
  rw [assembleOp]
  split
  next hx hy hz => simp [assembleInstr, Instr.wellFormed, hx, hy, hz]
  next hno => exact iff_of_true rfl (byteOperand_eq_none_of_no_values hno)

/-- `SETS` is an error exactly if one of its byte operands is. -/
theorem assembleOp_sets_eq_none_iff (x y z : Int) :
    assembleOp (.sets x y z) = none ↔
      byteOperand x = none ∨ byteOperand y = none ∨ byteOperand z = none := by
  rw [assembleOp, assembleSets]
  split
  next hx hy hz => simp [assembleInstr, Instr.wellFormed, hx, hy, hz]
  next hno => exact iff_of_true rfl (byteOperand_eq_none_of_no_values hno)

/-- `TICKS` is an error exactly for a negative count. -/
theorem assembleOp_ticks_eq_none_iff (n : Int) : assembleOp (.ticks n) = none ↔ n < 0 := by
  rw [assembleOp, assembleTicks, ite_eq_right_iff]
  simp only [reduceCtorEq, imp_false, not_le]

/-- Settles O30. -/
theorem operandRangeErrors : Obligations.OperandRangeErrors := by
  refine ⟨assembleOp_setn_eq_none_iff, fun x y z => ?_, fun x y z => ?_,
    assembleOp_ticks_eq_none_iff⟩
  · simp only [assembleOp_setg_eq_none_iff, byteOperand_eq_none_iff, not_and_or]
  · simp only [assembleOp_sets_eq_none_iff, byteOperand_eq_none_iff, not_and_or]

/-! ## Written-out words and texts -/

/-- Settles O28: fixed words, each decoded by evaluation. -/
theorem writtenOutWordsDecode : Obligations.WrittenOutWordsDecode := by
  unfold Obligations.WrittenOutWordsDecode
  decide

/-- Settles O29: fixed texts, each assembled by evaluation. -/
theorem assemblerExamples : Obligations.AssemblerExamples := by
  unfold Obligations.AssemblerExamples
  decide

end Sys2Proof

/-! PROOF. Steps and executions (20_memory.md section 3, 60_exceptions.md section 1): what one step does
by the head of the pending events, and what an execution leaves in `BUF`, in the refusal mark and in
the GPIO registers. -/

namespace Sys2Proof.Machine

/-! ## One step, by the head of the pending events -/

/-- With no event pending a step changes nothing. -/
theorem step_of_inputs_nil {s : State} (h : s.inputs = []) : step s = .next s := by
  simp only [step, takeEvent, h, idle]

/-- A step performs the first pending event and takes it off. -/
theorem step_of_inputs_cons {s : State} {e : Event} {es : List Event} (h : s.inputs = e :: es) :
    step s = .next (setInputs es (performed e s)) := by
  have hs : setInputs (e :: es) s = s := by rw [← h]; rfl
  have hstep := step_setInputs_cons e es s
  rwa [hs] at hstep

/-- An event that decodes is performed as its operation. -/
theorem exec_of_decode {e : Event} {i : Instr} (h : decode e = .ok i) (s : State) :
    exec i s = .next (performed e s) := by
  cases e with
  | tick =>
    obtain rfl := Except.ok.inj h
    exact exec_advance s
  | command w =>
    rw [decode] at h
    simp only [performed, bufferAfterWord, h]
    cases i with
    | advance => exact absurd h (decodeWord_ne_advance w)
    | setg g1 g2 g3 => rfl
    | setn v => rfl
    | sets c1 c2 c3 => rfl

/-- A step on an event that decodes is its operation in the state without that event. -/
theorem step_eq_exec {s : State} {e : Event} {es : List Event} {i : Instr}
    (hinputs : s.inputs = e :: es) (hdecode : decode e = .ok i) :
    step s = exec i (setInputs es s) := by
  rw [step_of_inputs_cons hinputs, exec_of_decode hdecode, performed_setInputs]

/-- A reserved word sets the mark and does nothing else. -/
theorem performed_reserved {w : CommandWord} (h : ¬Assigned w) (s : State) :
    performed (.command w) s = refuse .reservedOpcode s := by
  simp only [performed, decodeWord_reserved h]

/-- Settles O31. -/
theorem everyOperationCompletes : Obligations.EveryOperationCompletes :=
  exists_exec_eq_next

/-- Settles O32. -/
theorem stepPerformsTheDecodedEvent : Obligations.StepPerformsTheDecodedEvent :=
  fun _ _ _ _ hinputs hdecode => step_eq_exec hinputs hdecode

/-- Settles O34. -/
theorem reservedWordSetsTheMarkOnly : Obligations.ReservedWordSetsTheMarkOnly := by
  intro s w es hinputs hreserved
  rw [step_of_inputs_cons hinputs, performed_reserved hreserved]
  rfl

/-- Settles O35. -/
theorem idleStepChangesNothing : Obligations.IdleStepChangesNothing :=
  fun _ h => step_of_inputs_nil h

/-- Settles O46. -/
theorem stepKeepsTheParameters : Obligations.StepKeepsTheParameters := by
  intro s t hstep
  obtain ⟨-, rfl⟩ | ⟨e, es, -, rfl⟩ := step_cases hstep
  · rfl
  · obtain ⟨hparams, -, -⟩ := performed_frame e s
    exact hparams

/-! ## Delivery of one event -/

/-- Bits that stand for an event deliver it before those pending. -/
theorem withFetchWord_of_portEvent {nbits w : Nat} {e : Event} (h : portEvent nbits w = some e)
    (s : State) : s.withFetchWord nbits w = setInputs (e :: s.inputs) s := by
  simp only [State.withFetchWord, deliverWord, h]

/-- Bits that stand for no event deliver nothing. -/
theorem withFetchWord_of_no_portEvent {nbits w : Nat} (h : portEvent nbits w = none) (s : State) :
    s.withFetchWord nbits w = s := by
  simp only [State.withFetchWord, deliverWord, h]

/-- Bits of the opcode table that stand for an operation stand for an event that decodes to it. -/
theorem portEvent_of_decodeTableWord {nbits w : Nat} {i : Instr}
    (h : decodeTableWord nbits w = some i) :
    ∃ e, portEvent nbits w = some e ∧ decode e = .ok i := by
  rw [decodeTableWord] at h
  split at h
  next => nomatch h
  next e he =>
    split at h
    next j hj => exact ⟨e, he, hj.trans (congrArg _ (Option.some.inj h))⟩
    next => nomatch h

/-- Settles O33: the delivered event is the first pending one, and the step takes it off again. -/
theorem deliveredWordRunsNext : Obligations.DeliveredWordRunsNext := by
  refine ⟨fun s nbits w i hi => ?_, fun s _ _ _ he => withFetchWord_of_portEvent he s,
    fun s _ _ hnone => withFetchWord_of_no_portEvent hnone s⟩
  obtain ⟨e, he, hdecode⟩ := portEvent_of_decodeTableWord hi
  rw [withFetchWord_of_portEvent he, step_eq_exec (setInputs_inputs _ _) hdecode]
  rfl

/-! ## `BUF` over an execution -/

/-- A tick keeps the parameters. -/
theorem advanced_params (s : State) : (advanced s).params = s.params := rfl

/-- A command word, assigned or reserved, leaves the buffer of `bufferAfterWord`. -/
theorem performed_command_buf (w : CommandWord) (s : State) :
    (performed (.command w) s).buf = bufferAfterWord s.params s.buf w := by
  by_cases h : Assigned w
  · rw [performed_command h, writeBuf_buf]
  · rw [performed_reserved h, refuse_buf, bufferAfterWord, decodeWord_reserved h]

/-- An assigned word replaces the buffer by a packed one, the same whatever the buffer was. -/
theorem bufferAfterWord_eq_pack {w : CommandWord} (h : Assigned w) (p : Params) :
    ∃ g : GlyphTriple, ∀ b : Buffer, bufferAfterWord p b w = pack g := by
  obtain ⟨i, hi⟩ := (assigned_iff_decodes w).1 h
  simp only [bufferAfterWord, hi]
  cases i with
  | advance => exact absurd hi (decodeWord_ne_advance w)
  | setg g1 g2 g3 => exact ⟨_, fun _ => rfl⟩
  | setn v => exact ⟨_, fun _ => rfl⟩
  | sets c1 c2 c3 => exact ⟨_, fun _ => rfl⟩

/-- Ticks alone keep `BUF`. -/
theorem performedAll_ticks_buf (n : Nat) (s : State) :
    (performedAll (List.replicate n .tick) s).buf = s.buf := by
  induction n generalizing s with
  | zero => rfl
  | succ n ih => exact ih (advanced s)

section interleavings

variable {n : Nat} {ws : List CommandWord} {es : List Event}

/-- An interleaving holds all of the tick agent's ticks. -/
theorem Interleaves.tickCount_eq (h : Interleaves n ws es) : tickCount es = n := by
  induction h with
  | done => rfl
  | tick _ ih => exact congrArg (· + 1) ih
  | command w _ ih => exact ih

/-- Over an interleaving `BUF` follows the writer's words alone. -/
theorem Interleaves.performedAll_buf (h : Interleaves n ws es) (s : State) :
    (performedAll es s).buf = bufferAfterWords s.params s.buf ws := by
  induction h generalizing s with
  | done => rfl
  | tick _ ih => exact ih (advanced s)
  | command w _ ih =>
    obtain ⟨hparams, -, -⟩ := performed_frame (.command w) s
    rw [performedAll, ih, hparams, performed_command_buf, bufferAfterWords]

/-- An interleaving of assigned words holds served events only. -/
theorem Interleaves.served (h : Interleaves n ws es) (hws : ∀ w ∈ ws, Assigned w) :
    ∀ e ∈ es, Served e := by
  induction h with
  | done => nofun
  | tick _ ih => exact List.forall_mem_cons.2 ⟨trivial, ih hws⟩
  | command w _ ih =>
    obtain ⟨hw, hws⟩ := List.forall_mem_cons.1 hws
    exact List.forall_mem_cons.2 ⟨hw, ih hws⟩

end interleavings

/-! ## The refusal mark over an execution (60_exceptions.md R182) -/

/-- A served event keeps the mark. -/
theorem performed_refusal {e : Event} (h : Served e) (s : State) :
    (performed e s).refusal = s.refusal := by
  cases e with
  | tick => rfl
  | command w => rw [performed_command h, writeBuf_refusal]

/-- Served events keep the mark. -/
theorem performedAll_refusal {es : List Event} (h : ∀ e ∈ es, Served e) (s : State) :
    (performedAll es s).refusal = s.refusal := by
  induction es generalizing s with
  | nil => rfl
  | cons e es ih =>
    obtain ⟨he, hes⟩ := List.forall_mem_cons.1 h
    exact (ih hes _).trans (performed_refusal he s)

/-- The mark is clear after an event exactly if it was before and the event is served. -/
theorem performed_accepted_iff (e : Event) (s : State) :
    (performed e s).Accepted ↔ s.Accepted ∧ Served e := by
  by_cases h : Served e
  · simp only [State.Accepted, performed_refusal h, h, and_true]
  · cases e with
    | tick => exact absurd trivial h
    | command w => simp [State.Accepted, performed_reserved h, h]

/-- The mark is clear after events exactly if it was before and all are served. -/
theorem performedAll_accepted_iff (es : List Event) (s : State) :
    (performedAll es s).Accepted ↔ s.Accepted ∧ ∀ e ∈ es, Served e := by
  induction es generalizing s with
  | nil => simp [performedAll]
  | cons e es ih => rw [performedAll, ih, performed_accepted_iff, List.forall_mem_cons, and_assoc]

/-- Settles O36. -/
theorem markIsSetExactlyByReservedWords : Obligations.MarkIsSetExactlyByReservedWords :=
  fun es s => ⟨_, runEvents_eq es s, performedAll_accepted_iff es s⟩

/-- Settles O37: `PHASE` counts the ticks, `BUF` follows the writer, the rest is unchanged. -/
theorem everyInterleavingPerformsAllEvents : Obligations.EveryInterleavingPerformsAllEvents := by
  intro n ws es s hint hws
  obtain ⟨hparams, -, hphase⟩ := performedAll_frame es s
  rw [hint.tickCount_eq] at hphase
  exact ⟨_, runEvents_eq es s, setInputs_inputs _ _, hphase, hint.performedAll_buf s, hparams,
    performedAll_refusal (hint.served hws) s⟩

/-! ## The GPIO registers and the pins over an execution -/

/-- A command word, assigned or reserved, writes no GPIO register. -/
theorem performed_command_outputs (w : CommandWord) (s : State) :
    (performed (.command w) s).bpOut = s.bpOut ∧ (performed (.command w) s).bpDir = s.bpDir ∧
      (performed (.command w) s).selOut = s.selOut ∧
      (performed (.command w) s).selDir = s.selDir := by
  by_cases h : Assigned w
  · rw [performed_command h]
    exact ⟨rfl, rfl, rfl, rfl⟩
  · rw [performed_reserved h]
    exact ⟨rfl, rfl, rfl, rfl⟩

/-- Events without a tick write no GPIO register. -/
theorem performedAll_outputs {es : List Event} (h : tickCount es = 0) (s : State) :
    (performedAll es s).bpOut = s.bpOut ∧ (performedAll es s).bpDir = s.bpDir ∧
      (performedAll es s).selOut = s.selOut ∧ (performedAll es s).selDir = s.selDir := by
  induction es generalizing s with
  | nil => exact ⟨rfl, rfl, rfl, rfl⟩
  | cons e es ih =>
    cases e with
    | tick => exact absurd h (Nat.succ_ne_zero _)
    | command w =>
      obtain ⟨hbp, hbpDir, hsel, hselDir⟩ := performed_command_outputs w s
      rw [← hbp, ← hbpDir, ← hsel, ← hselDir]
      exact ih h _

/-- The pins show the four GPIO registers and nothing else (10_state.md R44). -/
theorem pins_eq_of_outputs_eq {s t : State} (hbp : t.bpOut = s.bpOut) (hbpDir : t.bpDir = s.bpDir)
    (hsel : t.selOut = s.selOut) (hselDir : t.selDir = s.selDir) : pins t = pins s := by
  simp only [pins, bpPin, selPin, hbp, hbpDir, hsel, hselDir]

/-- Events without a tick keep the pins. -/
theorem performedAll_pins {es : List Event} (h : tickCount es = 0) (s : State) :
    pins (performedAll es s) = pins s := by
  obtain ⟨hbp, hbpDir, hsel, hselDir⟩ := performedAll_outputs h s
  exact pins_eq_of_outputs_eq hbp hbpDir hsel hselDir

/-- The pins do not depend on the pending events. -/
theorem pins_setInputs (es : List Event) (s : State) : pins (setInputs es s) = pins s := rfl

/-- Settles O39. -/
theorem pinsHoldBetweenTicks : Obligations.PinsHoldBetweenTicks := by
  intro es s hticks _
  obtain ⟨hbp, hbpDir, hsel, hselDir⟩ := performedAll_outputs hticks s
  exact ⟨_, runEvents_eq es s, hbp, hbpDir, hsel, hselDir, performedAll_pins hticks s⟩

/-- With the directions of the reset every pin is undriven. -/
theorem pins_resetWith (p : Params) : pins (State.resetWith p) = List.replicate 11 .undriven := by
  simp [pins, bpPin, selPin, List.replicate]

/-- Settles O40. -/
theorem pinsAreUndrivenBeforeTheFirstTick : Obligations.PinsAreUndrivenBeforeTheFirstTick := by
  intro p es hticks _
  refine ⟨_, runEvents_eq es _, ?_⟩
  rw [pins_setInputs, performedAll_pins hticks, pins_resetWith]

/-- All 11 lines are outputs. -/
def AllDriven (s : State) : Prop := s.bpDir = 0x3F#6 ∧ s.selDir = 0x1F#5

/-- A tick makes all lines outputs. -/
theorem allDriven_advanced (s : State) : AllDriven (advanced s) := by
  obtain ⟨hbpDir, hselDir, -, -⟩ := advanced_outputs s
  exact ⟨hbpDir, hselDir⟩

/-- No event makes a line an input again. -/
theorem AllDriven.performed {s : State} (h : AllDriven s) (e : Event) :
    AllDriven (performed e s) := by
  cases e with
  | tick => exact allDriven_advanced s
  | command w =>
    obtain ⟨-, hbpDir, -, hselDir⟩ := performed_command_outputs w s
    exact ⟨hbpDir.trans h.1, hselDir.trans h.2⟩

/-- No events make a line an input again. -/
theorem AllDriven.performedAll {s : State} (h : AllDriven s) (es : List Event) :
    AllDriven (performedAll es s) := by
  induction es generalizing s with
  | nil => exact h
  | cons e es ih => exact ih (h.performed e)

/-- After events with a tick among them all lines are outputs. -/
theorem allDriven_performedAll {es : List Event} (h : 0 < tickCount es) (s : State) :
    AllDriven (performedAll es s) := by
  induction es generalizing s with
  | nil => exact absurd h (Nat.lt_irrefl 0)
  | cons e es ih =>
    cases e with
    | tick => exact (allDriven_advanced s).performedAll es
    | command w => exact ih h _

/-- Where all lines are outputs, backplane line `i` is driven to its data bit. -/
theorem AllDriven.bpPin_eq {s : State} (h : AllDriven s) (i : Fin 6) :
    bpPin s i = .driven (s.bpOut.getLsbD i) := by
  have hi : (0x3F#6).getLsbD i = true := by revert i; decide
  rw [bpPin, h.1, if_pos hi]

/-- Where all lines are outputs, line `i` of the select group is driven to its data bit. -/
theorem AllDriven.selPin_eq {s : State} (h : AllDriven s) (i : Fin 5) :
    selPin s i = .driven (s.selOut.getLsbD i) := by
  have hi : (0x1F#5).getLsbD i = true := by revert i; decide
  rw [selPin, h.2, if_pos hi]

/-- Where all lines are outputs, no pin is undriven. -/
theorem AllDriven.pins_ne_undriven {s : State} (h : AllDriven s) : ∀ x ∈ pins s, x ≠ .undriven := by
  simp [pins, h.bpPin_eq, h.selPin_eq]

/-- Settles O41: the first tick makes all lines outputs and nothing undoes it. -/
theorem directionsStayAllOnesAfterATick : Obligations.DirectionsStayAllOnesAfterATick := by
  intro es s hticks _
  have hdriven := allDriven_performedAll hticks s
  exact ⟨_, runEvents_eq es s, hdriven.1, hdriven.2, hdriven.pins_ne_undriven⟩

/-- The place of backplane line `i` among the pins. -/
theorem pins_getElem?_bp (s : State) (i : Fin 6) : (pins s)[i.val]? = some (bpPin s i) := by
  fin_cases i <;> rfl

/-- The place of line `i` of the select group among the pins. -/
theorem pins_getElem?_sel (s : State) (i : Fin 5) : (pins s)[6 + i.val]? = some (selPin s i) := by
  fin_cases i <;> rfl

/-- A line is driven to `v` exactly if its direction bit is 1 and its data bit is `v`. -/
theorem ite_driven_eq_iff (dir level v : Bool) :
    (if dir = true then Pin.driven level else .undriven) = .driven v ↔ dir = true ∧ level = v := by
  cases dir <;> simp

/-- Settles O49. -/
theorem pinsFollowTheRegisters : Obligations.PinsFollowTheRegisters := by
  refine fun s => ⟨rfl, fun i v => ?_, fun i v => ?_⟩
  · rw [pins_getElem?_bp, Option.some_inj, bpPin, ite_driven_eq_iff]
  · rw [pins_getElem?_sel, Option.some_inj, selPin, ite_driven_eq_iff]

end Sys2Proof.Machine

/-! PROOF. The output logic (42_driver.md): what an `ADVANCE` drives onto the backplane and the select
group, alone, in a row, and with commands between. -/

namespace Sys2Proof.Machine

/-! ## The backplane (R153) -/

/-- `BP_OUT` after `ADVANCE`: the selected byte's low six bits, inverted on an even phase. -/
theorem advanced_bpOut {s : State} {d : Byte} (h : s.buf[s.phase.toNat / 2]? = some d) :
    (advanced s).bpOut =
      if s.phase.toNat % 2 = 1 then d.setWidth 6 else ~~~(d.setWidth 6) := by
  obtain ⟨-, -, -, hbp⟩ := advanced_outputs s
  rw [hbp, drive_bp, ← eq_readBuf_of_getElem? h, BitVec.setWidth_eq_extractLsb' (by omega)]

/-- `ADVANCE` as an update of five fields, from the values of the four GPIO registers after it. -/
theorem exec_advance_eq_of_outputs {s : State} {bp bpDir : BitVec 6} {sel selDir : BitVec 5}
    (hbp : (advanced s).bpOut = bp) (hbpDir : (advanced s).bpDir = bpDir)
    (hsel : (advanced s).selOut = sel) (hselDir : (advanced s).selDir = selDir) :
    exec .advance s = .next
      { s with
        phase := s.phase + 1
        bpOut := bp
        bpDir := bpDir
        selOut := sel
        selDir := selDir } := by
  subst hbp hbpDir hsel hselDir
  rfl

/-- Settles O5: the phase moves on, and the four GPIO registers take what `drive` gives. -/
theorem advanceDrivesTheSelectedByte : Obligations.AdvanceDrivesTheSelectedByte := by
  intro s d hd
  obtain ⟨hbpDir, hselDir, hsel, -⟩ := advanced_outputs s
  exact exec_advance_eq_of_outputs (advanced_bpOut hd) hbpDir
    (hsel.trans (selPattern_eq _ _)) hselDir

/-- Bit `i` of six bits, inverted or not. -/
theorem getLsbD_ite_not (c : Prop) [Decidable c] (x : BitVec 6) (i : Fin 6) :
    (if c then x else ~~~x).getLsbD i = (x.getLsbD i != !decide c) := by
  by_cases h : c
  · simp [h]
  · simp [h, i.isLt]

/-- Settles O8. -/
theorem backplaneLinesShowTheSelectedByte : Obligations.BackplaneLinesShowTheSelectedByte := by
  intro s d i hd
  have hpolarity : (!decide (s.phase.toNat % 2 = 1)) = decide (s.phase.toNat % 2 = 0) := by
    rw [← decide_not, decide_eq_decide]
    omega
  refine ⟨advanced s, exec_advance s, ?_⟩
  rw [(allDriven_advanced s).bpPin_eq, advanced_bpOut hd, getLsbD_ite_not, hpolarity,
    BitVec.getLsbD_setWidth, decide_eq_true i.isLt, Bool.true_and]

/-! ## The select group (R154, R156, R158) -/

/-- On an even phase the pattern is the policy's even one. -/
theorem selPattern_even (policy : SelEvenPolicy) {p : BitVec 3} (h : p.toNat % 2 = 0) :
    selPattern policy p = evenSel policy (select p) :=
  if_neg (by rw [polarity_eq_one_iff]; omega)

/-- The ballast line of the even-phase group is asserted. -/
theorem evenSel_ballast (policy : SelEvenPolicy) (q : BitVec 2) :
    (evenSel policy q).getLsbD 4 = true := by
  cases policy with
  | complement => rw [evenSel, BitVec.getLsbD_append, if_neg (Nat.lt_irrefl 4)]; rfl
  | ballastOnly => rw [evenSel, BitVec.getLsbD_append, if_neg (Nat.lt_irrefl 4)]; rfl

/-- A select line of the even-phase group is asserted exactly under `COMPLEMENT` and where it is not
the selected one. -/
theorem evenSel_getLsbD_of_lt (policy : SelEvenPolicy) (q : BitVec 2) {i : Nat} (hi : i < 4) :
    (evenSel policy q).getLsbD i = (decide (policy = .complement) && decide (i ≠ q.toNat)) := by
  cases policy with
  | complement =>
    rw [evenSel, BitVec.getLsbD_append, if_pos hi, BitVec.getLsbD_not, selectBit_getLsbD]
    simp [hi]
  | ballastOnly =>
    rw [evenSel, BitVec.getLsbD_append, if_pos hi]
    simp

/-- Settles O7: the even-phase group line by line. -/
theorem evenPhaseAssertsTheBallastLine : Obligations.EvenPhaseAssertsTheBallastLine := by
  intro s heven
  obtain ⟨-, -, hsel, -⟩ := advanced_outputs s
  have hlt : (select s.phase).toNat < 4 := (select s.phase).isLt
  refine ⟨advanced s, exec_advance s, ?_⟩
  rw [hsel, selPattern_even _ heven, ← select_toNat]
  refine ⟨evenSel_ballast _ _, ?_, fun i hi hne => ?_⟩
  · simp [evenSel_getLsbD_of_lt _ _ hlt]
  · simp [evenSel_getLsbD_of_lt _ _ hi, hne]

/-- The patterns of the eight phases under `COMPLEMENT`. -/
theorem selPattern_complement_mem (p : BitVec 3) :
    selPattern .complement p ∈
      [0x01#5, 0x02#5, 0x04#5, 0x08#5, 0x1E#5, 0x1D#5, 0x1B#5, 0x17#5] := by
  revert p; decide

/-- The patterns of the eight phases under `BALLAST_ONLY`. -/
theorem selPattern_ballastOnly_mem (p : BitVec 3) :
    selPattern .ballastOnly p ∈ [0x01#5, 0x02#5, 0x04#5, 0x08#5, 0x10#5] := by
  revert p; decide

/-- Settles O50. -/
theorem selOutTakesOnlyTheListedValues : Obligations.SelOutTakesOnlyTheListedValues := by
  intro s
  obtain ⟨-, -, hsel, -⟩ := advanced_outputs s
  refine ⟨advanced s, exec_advance s, fun hpolicy => ?_, fun hpolicy => ?_⟩
  · rw [hsel, hpolicy]
    exact selPattern_complement_mem s.phase
  · rw [hsel, hpolicy]
    exact selPattern_ballastOnly_mem s.phase

/-! ## Reset and the first tick (70_reset_and_hazards.md section 1) -/

/-- Settles O1. -/
theorem resetSetsEveryItem : Obligations.ResetSetsEveryItem :=
  ⟨fun _ => ⟨rfl, rfl, rfl, rfl, rfl, rfl, rfl, rfl, rfl⟩, rfl, rfl, by decide⟩

/-- Settles O3: phase 0 is even and selects byte 0. -/
theorem firstTickAfterReset : Obligations.FirstTickAfterReset := by
  refine ⟨fun p => ⟨_, exec_advance _, ?_⟩, _, exec_advance _, by decide, by decide⟩
  obtain ⟨hbpDir, hselDir, hsel, -⟩ := advanced_outputs (State.resetWith p)
  have hd : (State.resetWith p).buf[(State.resetWith p).phase.toNat / 2]? = some p.bufReset[0] := by
    simp
  rw [resetWith_params, resetWith_phase, selPattern_even _ rfl] at hsel
  exact ⟨advanced_bpOut hd, hsel, hbpDir, hselDir, rfl⟩

/-! ## A tick after other events (20_memory.md sections 1 and 3) -/

/-- A tick after other events advances what they left. -/
theorem performedAll_append_tick (es : List Event) (s : State) :
    performedAll (es ++ [.tick]) s = advanced (performedAll es s) :=
  performedAll_append es [.tick] s

/-- Settles O38: the tick drives the phase and the buffer that the events before it left. -/
theorem tickDrivesTheBufferOfTheCommandsBefore :
    Obligations.TickDrivesTheBufferOfTheCommandsBefore := by
  intro n ws es s d hint _ hd
  obtain ⟨hparams, -, hphase⟩ := performedAll_frame es s
  rw [hint.tickCount_eq] at hphase
  have hnat : (performedAll es s).phase.toNat = (s.phase.toNat + n) % 8 := by
    rw [hphase, BitVec.toNat_add, BitVec.toNat_ofNat, Nat.add_mod_mod]
  have hparity : (s.phase.toNat + n) % 8 % 2 = (s.phase.toNat + n) % 2 := by omega
  rw [← hnat, ← hint.performedAll_buf s] at hd
  have hbp := advanced_bpOut hd
  rw [hnat, hparity] at hbp
  obtain ⟨hbpDir, hselDir, hsel, -⟩ := advanced_outputs (performedAll es s)
  rw [hparams, hphase] at hsel
  refine ⟨_, runEvents_eq _ s, ?_⟩
  rw [performedAll_append_tick]
  exact ⟨hbp, hsel, hbpDir, hselDir⟩

/-! ## Balance within a sub-cycle (R161) -/

/-- The phase after an even one has the next number. -/
theorem nextPhase_toNat_of_even {p : BitVec 3} (h : p.toNat % 2 = 0) :
    (nextPhase p).toNat = p.toNat + 1 := by
  have hlt : p.toNat < 8 := p.isLt
  rw [nextPhase_toNat]
  omega

/-- Both phases of a sub-cycle select the same line and byte. -/
theorem select_nextPhase_of_even {p : BitVec 3} (h : p.toNat % 2 = 0) :
    select (nextPhase p) = select p := by
  apply BitVec.eq_of_toNat_eq
  rw [select_toNat, select_toNat, nextPhase_toNat_of_even h]
  omega

/-- The state before the second tick of a sub-cycle with the words `ws` between its ticks. -/
def midCycle (ws : List CommandWord) (s : State) : State :=
  writeBuf (bufferAfterWords s.params s.buf ws) (advanced s)

/-- A sub-cycle with served commands inside is the first tick, their buffer, and the second tick. -/
theorem performedAll_subCycle {ws : List CommandWord} (h : ∀ w ∈ ws, Assigned w) (s : State) :
    performedAll (.tick :: ws.map .command ++ [.tick]) s = advanced (midCycle ws s) :=
  (performedAll_append_tick (.tick :: ws.map .command) s).trans
    (congrArg advanced (performedAll_commands h (advanced s)))

/-- The second tick of a sub-cycle comes at the phase after the first one's. -/
theorem midCycle_phase (ws : List CommandWord) (s : State) :
    (midCycle ws s).phase = nextPhase s.phase := rfl

/-- The second tick of a sub-cycle drives the byte that the commands before it left. -/
theorem advanced_midCycle_bpOut {s : State} (ws : List CommandWord) {d : Byte}
    (heven : s.phase.toNat % 2 = 0)
    (hd : (bufferAfterWords s.params s.buf ws)[s.phase.toNat / 2]? = some d) :
    (advanced (midCycle ws s)).bpOut = d.setWidth 6 := by
  have hphase : (midCycle ws s).phase.toNat = s.phase.toNat + 1 := nextPhase_toNat_of_even heven
  have hindex : (s.phase.toNat + 1) / 2 = s.phase.toNat / 2 := by omega
  have hd' : (midCycle ws s).buf[(midCycle ws s).phase.toNat / 2]? = some d := by
    rwa [hphase, hindex]
  rw [advanced_bpOut hd', hphase, if_pos (by omega)]

/-- Settles O9: the first tick drives the byte inverted, the second the byte then in `BUF`. -/
theorem polarityBalanceExactlyIfByteKept : Obligations.PolarityBalanceExactlyIfByteKept := by
  intro s ws d d' heven hws hd hd'
  refine ⟨_, _, runEvents_eq [.tick] s, runEvents_eq _ s, ?_⟩
  have hfirst : (performedAll [.tick] s).bpOut = ~~~(d.setWidth 6) :=
    (advanced_bpOut hd).trans (if_neg (by omega))
  rw [performedAll_subCycle hws, setInputs_bpOut, setInputs_bpOut,
    advanced_midCycle_bpOut ws heven hd', hfirst, BitVec.not_not]

/-- Under `COMPLEMENT` the even-phase group is the complement of the odd-phase one. -/
theorem evenSel_complement (q : BitVec 2) : evenSel .complement q = ~~~oddSel q :=
  (BitVec.not_append (x := 0b0#1) (y := selectBit q)).symm

/-- Settles O10: both ticks of the sub-cycle select the same line. -/
theorem selectGroupIsAlwaysBalanced : Obligations.SelectGroupIsAlwaysBalanced := by
  intro s ws heven hpolicy hws
  refine ⟨_, _, runEvents_eq [.tick] s, runEvents_eq _ s, ?_⟩
  have hodd : (midCycle ws s).phase.toNat % 2 = 1 := by
    rw [midCycle_phase, nextPhase_toNat_of_even heven]
    omega
  have hfirst : (performedAll [.tick] s).selOut = ~~~oddSel (select s.phase) := by
    obtain ⟨-, -, hsel, -⟩ := advanced_outputs s
    rw [hpolicy, selPattern_even _ heven, evenSel_complement] at hsel
    exact hsel
  rw [performedAll_subCycle hws, setInputs_selOut, setInputs_selOut, advanced_selOut_odd hodd,
    midCycle_phase, select_nextPhase_of_even heven, hfirst, BitVec.not_not]

/-! ## A frame of eight ticks (R160, R213) -/

/-- `PHASE` after ticks alone. -/
theorem performedAll_ticks_phase (n : Nat) (s : State) :
    (performedAll (List.replicate n .tick) s).phase = s.phase + BitVec.ofNat 3 n := by
  rw [performedAll_phase, tickCount_replicate]

/-- Fewer than 8 ticks lead from one phase to another exactly if they are its distance. -/
theorem phase_add_ofNat_eq_iff (p q : BitVec 3) {n : Nat} (hn : n < 8) :
    p + BitVec.ofNat 3 n = q ↔ n = (q - p).toNat := by
  have hp : p.toNat < 8 := p.isLt
  have hq : q.toNat < 8 := q.isLt
  rw [← BitVec.toNat_inj, BitVec.toNat_add, BitVec.toNat_sub, BitVec.toNat_ofNat]
  omega

/-- Settles O11: the number of ticks before phase `q` is its distance from the present phase. -/
theorem eachPhaseIsDrivenOncePerFrame : Obligations.EachPhaseIsDrivenOncePerFrame := by
  intro s q
  refine ⟨(q - s.phase).toNat, (q - s.phase).isLt, ⟨_, runEvents_eq _ s, ?_⟩, ?_⟩
  · rw [setInputs_phase, performedAll_ticks_phase,
      phase_add_ofNat_eq_iff _ _ (q - s.phase).isLt]
  · intro j t hj hrun hphase
    obtain rfl := Host.Outcome.next.inj ((runEvents_eq _ s).symm.trans hrun)
    rw [setInputs_phase, performedAll_ticks_phase] at hphase
    exact (phase_add_ofNat_eq_iff _ _ hj).1 hphase

/-- Of the two phases that select line `q`, one comes within the next 7 ticks. -/
theorem exists_ticks_to_select (p : BitVec 3) (q : BitVec 2) :
    ∃ k, k < 7 ∧ select (p + BitVec.ofNat 3 k) = q := by
  revert p q; decide

/-- An `ADVANCE` whose phase selects byte `d` shows it, normal or inverted, with its select group. -/
theorem advanced_shows_selected {s : State} {d : Byte}
    (h : s.buf[(select s.phase).toNat]? = some d) :
    ((advanced s).bpOut = d.setWidth 6 ∧ (advanced s).selOut = oddSel (select s.phase)) ∨
      ((advanced s).bpOut = ~~~(d.setWidth 6) ∧
        (advanced s).selOut = evenSel s.params.selEvenPolicy (select s.phase)) := by
  rw [select_toNat] at h
  obtain ⟨-, -, hsel, -⟩ := advanced_outputs s
  rcases Nat.mod_two_eq_zero_or_one s.phase.toNat with heven | hodd
  · exact .inr ⟨by rw [advanced_bpOut h, if_neg (by omega)],
      hsel.trans (selPattern_even _ heven)⟩
  · exact .inl ⟨by rw [advanced_bpOut h, if_pos hodd], hsel.trans (selPattern_odd _ hodd)⟩

/-- Settles O12: ticks alone keep `BUF`, and one of the next 7 selects the byte. -/
theorem everyByteReachesThePinsWithinSevenTicks :
    Obligations.EveryByteReachesThePinsWithinSevenTicks := by
  intro s q d hd
  obtain ⟨k, hk, hselect⟩ := exists_ticks_to_select s.phase q
  refine ⟨k, _, hk, runEvents_eq _ s, ?_⟩
  obtain ⟨hparams, -, -⟩ := performedAll_frame (List.replicate k .tick) s
  rw [← performedAll_ticks_phase] at hselect
  rw [← performedAll_ticks_buf k s, ← hselect] at hd
  have hshows := advanced_shows_selected hd
  rw [hselect, hparams] at hshows
  rwa [List.replicate_succ', performedAll_append_tick]

/-! ## The invariant of the outputs (10_state.md section 5) -/

/-- A tick establishes the invariant in every state: it drives the phase before the one it leaves. -/
theorem outputsInv_advanced (s : State) : OutputsInv (advanced s) := by
  obtain ⟨hbpDir, hselDir, hsel, -⟩ := advanced_outputs s
  have hprev : (advanced s).phase - 1 = s.phase := BitVec.add_sub_cancel s.phase 1#3
  refine .inr ⟨hbpDir, hselDir, ?_⟩
  rw [hsel, hprev, advanced_params]

/-- Every event keeps the invariant: a command writes nothing it speaks of. -/
theorem OutputsInv.performed {s : State} (h : OutputsInv s) (e : Event) :
    OutputsInv (performed e s) := by
  cases e with
  | tick => exact outputsInv_advanced s
  | command w =>
    by_cases hw : Assigned w
    · rw [performed_command hw]
      exact h
    · rw [performed_reserved hw]
      exact h

/-- Settles O42: each clause by what a step can do. -/
theorem stepKeepsTheOutputs : Obligations.StepKeepsTheOutputs := by
  constructor
  case left =>
    intro s t hinv hstep
    obtain ⟨-, rfl⟩ | ⟨e, es, -, rfl⟩ := step_cases hstep
    · exact hinv
    · exact hinv.performed e
  case right =>
    intro s t hnotick hstep
    obtain ⟨-, rfl⟩ | ⟨e, es, hinputs, rfl⟩ := step_cases hstep
    · exact ⟨rfl, rfl, rfl, rfl⟩
    · cases e with
      | tick => exact absurd hinputs (hnotick es)
      | command w => exact performed_command_outputs w s

/-- Settles O43. -/
theorem resetHasLegalOutputs : Obligations.ResetHasLegalOutputs :=
  fun _ => .inl ⟨rfl, rfl, rfl, rfl, rfl⟩

end Sys2Proof.Machine

/-! PROOF. The glyph table and the encoder (40_glyph_table.md, 41_encoder.md): packing and its inverse,
the glyph of each code, and what a buffer tells of the value it shows. -/

namespace Sys2Proof.Machine

/-! ## Packing (R120, R121) -/

/-- Bit `j` of slice `k` is bit `2k + j` of the glyph. -/
theorem slice_getLsbD (g : Glyph) (k : Nat) {j : Nat} (hj : j < 2) :
    (slice g k).getLsbD j = g.getLsbD (2 * k + j) := by
  rw [slice, BitVec.getLsbD_extractLsb', decide_eq_true hj, Bool.true_and]

/-- A byte is determined by its four slices. -/
theorem eq_of_slice_eq {g g' : Glyph} (h : ∀ k, k < 4 → slice g k = slice g' k) : g = g' := by
  apply BitVec.eq_of_getLsbD_eq
  intro i hi
  have hsplit : i = 2 * (i / 2) + i % 2 := (Nat.div_add_mod i 2).symm
  rw [hsplit, ← slice_getLsbD g _ (Nat.mod_lt i Nat.two_pos), h _ (by omega),
    slice_getLsbD g' _ (Nat.mod_lt i Nat.two_pos)]

/-- `unpack` undoes `pack`. -/
theorem unpack_pack (t : GlyphTriple) : unpack (pack t) = t := by
  have h1 : gather (pack t) 4 = t.g1 := eq_of_slice_eq fun k hk => by
    rw [gather_slice _ _ _ hk, getElem_pack t k hk, packByte_g1]
  have h2 : gather (pack t) 2 = t.g2 := eq_of_slice_eq fun k hk => by
    rw [gather_slice _ _ _ hk, getElem_pack t k hk, packByte_g2]
  have h3 : gather (pack t) 0 = t.g3 := eq_of_slice_eq fun k hk => by
    rw [gather_slice _ _ _ hk, getElem_pack t k hk, packByte_g3]
  rw [unpack, h1, h2, h3]

/-- A byte with clear pad bits is packed again from the three slices gathered from it. -/
theorem packByte_unpack {b : Buffer} {k : Nat} (hk : k < 4) (hpad : b[k].extractLsb' 6 2 = 0#2) :
    packByte (unpack b) k = b[k] := by
  apply eq_of_slice_eq
  intro j hj
  match j with
  | 0 => exact (packByte_g3 _ k).trans (gather_slice b 0 k hk)
  | 1 => exact (packByte_g2 _ k).trans (gather_slice b 2 k hk)
  | 2 => exact (packByte_g1 _ k).trans (gather_slice b 4 k hk)
  | 3 => exact (packByte_pad _ k).trans hpad.symm

/-- `pack` undoes `unpack` where the pad bits are clear. -/
theorem pack_unpack {b : Buffer} (h : PadClear b) : pack (unpack b) = b :=
  Vector.ext fun k hk => (getElem_pack _ k hk).trans (packByte_unpack hk (h ⟨k, hk⟩))

/-- Settles O14. -/
theorem packUnpackAreInverse : Obligations.PackUnpackAreInverse :=
  ⟨fun t => ⟨padClear_pack t, unpack_pack t⟩, fun _ h => pack_unpack h⟩

/-- Different glyphs pack to different buffers. -/
theorem pack_injective {t u : GlyphTriple} (h : pack t = pack u) : t = u := by
  rw [← unpack_pack t, h, unpack_pack]

/-- A slice, shifted to the bottom of a byte and masked. -/
theorem shift_and_mask_eq_slice (g : Glyph) (k : Nat) :
    (g >>> (2 * k)) &&& 3#8 = (slice g k).setWidth 8 := by
  apply BitVec.eq_of_toNat_eq
  have hmask : (g.toNat >>> (2 * k)) &&& 3 = (g.toNat >>> (2 * k)) % 4 :=
    Nat.and_two_pow_sub_one_eq_mod _ 2
  have hfit : g.toNat >>> (2 * k) % 4 % 256 = g.toNat >>> (2 * k) % 4 := by omega
  simpa [slice] using hmask.trans hfit.symm

/-- Three slices side by side, as a disjunction of shifted bytes. -/
theorem append_slices_eq_or :
    ∀ a b c : BitVec 2, 0b00#2 ++ a ++ b ++ c =
      (a.setWidth 8 <<< 4) ||| (b.setWidth 8 <<< 2) ||| c.setWidth 8 := by
  decide

/-- Settles O13. -/
theorem setgPacksTheSlices : Obligations.SetgPacksTheSlices := by
  intro s g1 g2 g3
  refine ⟨pack ⟨g1, g2, g3⟩, rfl, fun k hk => ?_⟩
  simp only [shift_and_mask_eq_slice]
  rw [getElem_pack _ k hk]
  exact append_slices_eq_or _ _ _

/-! ## Pad bits (10_state.md R38) -/

/-- An assigned word clears the pad bits, whatever they were. -/
theorem performed_command_padClear {w : CommandWord} (h : Assigned w) (s : State) :
    PadClear (performed (.command w) s).buf := by
  obtain ⟨g, hg⟩ := bufferAfterWord_eq_pack h s.params
  rw [performed_command_buf, hg]
  exact padClear_pack g

/-- Every event keeps the pad bits clear. -/
theorem performed_padClear {s : State} (h : PadClear s.buf) (e : Event) :
    PadClear (performed e s).buf := by
  cases e with
  | tick => exact h
  | command w =>
    by_cases hw : Assigned w
    · exact performed_command_padClear hw s
    · rw [performed_reserved hw]
      exact h

/-- Settles O44: a command's buffer is a packed one, and nothing else writes `BUF`. -/
theorem stepKeepsThePadClear : Obligations.StepKeepsThePadClear := by
  constructor
  case left =>
    intro s t hpad hstep
    obtain ⟨-, rfl⟩ | ⟨e, es, -, rfl⟩ := step_cases hstep
    · exact hpad
    · exact performed_padClear hpad e
  case right =>
    intro s w es hinputs hw
    exact ⟨_, step_of_inputs_cons hinputs, performed_command_padClear hw s⟩

/-- Settles O45: the reference buffer is four bytes 0. -/
theorem resetHasPadClear : Obligations.ResetHasPadClear := by
  unfold Obligations.ResetHasPadClear
  decide

/-! ## The glyph table (40_glyph_table.md section 2) -/

/-- A code that is no digit and no letter is blank. -/
theorem glyphFor_other (p : Params) {c : CharCode}
    (h : c.toNat < 0x30 ∨ (0x39 < c.toNat ∧ c.toNat < 0x41) ∨
      (0x5A < c.toNat ∧ c.toNat < 0x61) ∨ 0x7A < c.toNat) : glyphFor p c = blankGlyph := by
  have hd : ¬(0x30 ≤ c.toNat ∧ c.toNat ≤ 0x39) := by omega
  have hu : ¬(0x41 ≤ c.toNat ∧ c.toNat ≤ 0x5A) := by omega
  have hl : ¬(0x61 ≤ c.toNat ∧ c.toNat ≤ 0x7A) := by omega
  rw [glyphFor, dif_neg hd, dif_neg hu, dif_neg hl]

/-- Settles O21. -/
theorem glyphTableLookup : Obligations.GlyphTableLookup :=
  fun p _ => ⟨glyphFor_digit p, glyphFor_upper p, glyphFor_lower p, glyphFor_other p⟩

/-- Settles O23: the ten digits and the dash, segment by segment. -/
theorem referenceDigitSegments : Obligations.ReferenceDigitSegments := by
  intro seg
  cases seg <;> decide

/-! ## `SETS` (R133, R134) -/

/-- `SETS` writes its packed glyphs and nothing else. -/
theorem exec_sets (c1 c2 c3 : CharCode) (s : State) :
    exec (.sets c1 c2 c3) s = .next (writeBuf (pack (stringGlyphs s.params c1 c2 c3)) s) := rfl

/-- The glyphs of a string, with the codes before each position as conditions. -/
theorem stringGlyphs_eq (p : Params) (c1 c2 c3 : CharCode) :
    stringGlyphs p c1 c2 c3 =
      ⟨if c1 = 0 then blankGlyph else glyphFor p c1,
        if c1 = 0 ∨ c2 = 0 then blankGlyph else glyphFor p c2,
        if c1 = 0 ∨ c2 = 0 ∨ c3 = 0 then blankGlyph else glyphFor p c3⟩ := by
  simp [stringGlyphs, or_assoc]

/-- Settles O20: the case split is on which code is the first 0x00. -/
theorem setsRendersUpToTheFirstNul : Obligations.SetsRendersUpToTheFirstNul := by
  intro s c1 c2 c3
  simp only [exec_sets, stringGlyphs_eq]
  refine ⟨fun h1 => ?_, fun h1 h2 => ?_, fun h1 h2 h3 => ?_, fun h1 h2 h3 => ?_⟩
  · simp only [h1, true_or, if_true]; rfl
  · simp only [h1, h2, false_or, true_or, if_true, if_false]; rfl
  · simp only [h1, h2, h3, false_or, if_true, if_false]; rfl
  · simp only [h1, h2, h3, false_or, if_false]; rfl

/-- The code of a digit. -/
theorem digitCode_toNat (d : Fin 10) : (BitVec.ofNat 8 (0x30 + d.val)).toNat = 0x30 + d.val := by
  rw [BitVec.toNat_ofNat]
  omega

/-- `SETS` of one digit shows its glyph at the leftmost position. -/
theorem stringGlyphs_digit_g1 (p : Params) (d : Fin 10) (c2 c3 : CharCode) :
    (stringGlyphs p (BitVec.ofNat 8 (0x30 + d.val)) c2 c3).g1 = p.digitGlyph.get d := by
  have hne : BitVec.ofNat 8 (0x30 + d.val) ≠ 0 := by
    intro h
    have hnat := digitCode_toNat d
    rw [h] at hnat
    exact absurd hnat (by simp; omega)
  rw [stringGlyphs_eq]
  exact (if_neg hne).trans (glyphFor_digit p d (digitCode_toNat d))

/-- The reference parameters meet the constraints on them. -/
theorem referenceParams_legal : referenceParams.Legal := by decide

/-- Settles O22: unpacking the buffer gives back the digit's own glyph. -/
theorem middleBarOfTheDigits : Obligations.MiddleBarOfTheDigits := by
  refine ⟨referenceParams_legal, fun s d hlegal => ⟨_, exec_sets _ 0 0 s, ?_⟩⟩
  obtain ⟨-, hbar⟩ := hlegal
  rw [writeBuf_buf, unpack_pack, stringGlyphs_digit_g1, hbar, decide_eq_true_iff]
  rfl

/-! ## `SETN` (R125 to R130) -/

/-- Settles O18: each value is rendered by evaluation, the glyphs left open. -/
theorem setnCornerValues : Obligations.SetnCornerValues :=
  fun _ => ⟨rfl, rfl, rfl, rfl, rfl, rfl, rfl, rfl, rfl, rfl, rfl, rfl⟩

/-- The glyphs that a number is written with all look different. -/
def DistinctGlyphs (p : Params) : Prop :=
  (0x00#8 :: p.dashGlyph :: p.digitGlyph.toList).Nodup

/-- A digit's glyph is among the ten. -/
theorem digitGlyph_get_mem (p : Params) (d : Fin 10) :
    p.digitGlyph.get d ∈ p.digitGlyph.toList :=
  Vector.mem_toList_iff.2 (Vector.getElem_mem d.isLt)

/-- A negative value in range has no hundreds. -/
theorem decompose_h_eq_zero_of_neg {v : Int} (hv : -99 ≤ v ∧ v ≤ 999) {hm : v.natAbs ≤ 999}
    (hneg : decide (v < 0) = true) : (decompose v.natAbs hm).h = 0 := by
  have hlt : v < 0 := of_decide_eq_true hneg
  by_contra hne
  have hge := (decompose_h_ne_zero_iff hm).1 hne
  omega

section distinct

variable {p : Params} (h : DistinctGlyphs p)

include h

/-- The dash is no blank. -/
theorem DistinctGlyphs.dash_ne_blank : p.dashGlyph ≠ blankGlyph := by
  obtain ⟨hblank, -⟩ := List.nodup_cons.1 h
  exact ne_of_mem_of_not_mem List.mem_cons_self hblank

/-- No digit is a blank. -/
theorem DistinctGlyphs.digit_ne_blank (d : Fin 10) : p.digitGlyph.get d ≠ blankGlyph := by
  obtain ⟨hblank, -⟩ := List.nodup_cons.1 h
  exact ne_of_mem_of_not_mem (List.mem_cons_of_mem _ (digitGlyph_get_mem p d)) hblank

/-- No digit is a dash. -/
theorem DistinctGlyphs.digit_ne_dash (d : Fin 10) : p.digitGlyph.get d ≠ p.dashGlyph := by
  obtain ⟨-, hrest⟩ := List.nodup_cons.1 h
  obtain ⟨hdash, -⟩ := List.nodup_cons.1 hrest
  exact ne_of_mem_of_not_mem (digitGlyph_get_mem p d) hdash

/-- Different digits look different. -/
theorem DistinctGlyphs.digit_injective : Function.Injective p.digitGlyph.get := by
  obtain ⟨-, hrest⟩ := List.nodup_cons.1 h
  obtain ⟨-, hdigits⟩ := List.nodup_cons.1 hrest
  intro d d' heq
  exact Fin.ext ((hdigits.getElem_inj_iff (hi := by simp) (hj := by simp)).1 heq)

/-- Two positions that look the same hold the same digit, where each is blank only for the digit 0. -/
theorem DistinctGlyphs.shown_injective {c c' : Prop} [Decidable c] [Decidable c'] {d d' : Fin 10}
    (hc : ¬c → d = 0) (hc' : ¬c' → d' = 0)
    (heq : (if c then p.digitGlyph.get d else blankGlyph) =
      if c' then p.digitGlyph.get d' else blankGlyph) : d = d' := by
  split_ifs at heq with h1 h2 h2
  · exact h.digit_injective heq
  · exact absurd heq (h.digit_ne_blank d)
  · exact absurd heq.symm (h.digit_ne_blank d')
  · exact (hc h1).trans (hc' h2).symm

/-- A digit or a blank is no dash. -/
theorem DistinctGlyphs.dash_ne_shown (c : Prop) [Decidable c] (d : Fin 10) :
    p.dashGlyph ≠ if c then p.digitGlyph.get d else blankGlyph := by
  split_ifs
  · exact (h.digit_ne_dash d).symm
  · exact h.dash_ne_blank

/-- The leftmost position tells the sign, and the hundreds where a negative value has none. -/
theorem DistinctGlyphs.leftmost_injective {neg neg' : Bool} {d d' : Fin 10}
    (hneg : neg = true → d = 0) (hneg' : neg' = true → d' = 0)
    (heq : (if neg then p.dashGlyph else if d ≠ 0 then p.digitGlyph.get d else blankGlyph) =
      if neg' then p.dashGlyph else if d' ≠ 0 then p.digitGlyph.get d' else blankGlyph) :
    neg = neg' ∧ d = d' := by
  match neg, neg' with
  | true, true => exact ⟨rfl, (hneg rfl).trans (hneg' rfl).symm⟩
  | true, false => exact absurd heq (h.dash_ne_shown _ d')
  | false, true => exact absurd heq.symm (h.dash_ne_shown _ d)
  | false, false => exact ⟨rfl, h.shown_injective not_not.1 not_not.1 heq⟩

/-- The three glyphs tell the sign and the digits. -/
theorem DistinctGlyphs.inRangeGlyphs_injective {neg neg' : Bool} {d d' : Digits}
    (hneg : neg = true → d.h = 0) (hneg' : neg' = true → d'.h = 0)
    (heq : inRangeGlyphs p neg d = inRangeGlyphs p neg' d') : neg = neg' ∧ d = d' := by
  obtain ⟨hg1, hg2, hg3⟩ := GlyphTriple.mk.inj heq
  obtain ⟨hsign, hh⟩ := h.leftmost_injective hneg hneg' hg1
  have ht : d.t = d'.t := h.shown_injective (fun hc => not_not.1 (not_or.1 hc).2)
    (fun hc => not_not.1 (not_or.1 hc).2) hg2
  have hu : d.u = d'.u := h.digit_injective hg3
  cases d
  cases d'
  exact ⟨hsign, (Digits.mk.injEq ..).mpr ⟨hh, ht, hu⟩⟩

/-- The glyphs of a value in range tell the value. -/
theorem DistinctGlyphs.numericGlyphs_injective {v w : Int} (hv : -99 ≤ v ∧ v ≤ 999)
    (hw : -99 ≤ w ∧ w ≤ 999) (heq : numericGlyphs p v = numericGlyphs p w) : v = w := by
  have hv' : v.natAbs ≤ 999 := by omega
  have hw' : w.natAbs ≤ 999 := by omega
  rw [numericGlyphs_inRange p (by omega), numericGlyphs_inRange p (by omega)] at heq
  obtain ⟨hsign, hdigits⟩ := h.inRangeGlyphs_injective (decompose_h_eq_zero_of_neg hv)
    (decompose_h_eq_zero_of_neg hw) heq
  have habs : v.natAbs = w.natAbs := by
    rw [decompose_sum v.natAbs hv', hdigits, ← decompose_sum w.natAbs hw']
  have hiff : v < 0 ↔ w < 0 := decide_eq_decide.1 hsign
  omega

end distinct

/-- Settles O19: the buffer tells the glyphs, and the glyphs tell the value. -/
theorem setnBufferTellsTheValue : Obligations.SetnBufferTellsTheValue := by
  intro s s' v w t u hparams hdistinct hvmin hvmax hwmin hwmax ht hu hbuf
  obtain rfl := Host.Outcome.next.inj ((exec_setn v s).symm.trans ht)
  obtain rfl := Host.Outcome.next.inj ((exec_setn w s').symm.trans hu)
  rw [writeBuf_buf, writeBuf_buf, hparams] at hbuf
  have hglyphs : DistinctGlyphs s.params := hdistinct
  exact hglyphs.numericGlyphs_injective ⟨hvmin, hvmax⟩ ⟨hwmin, hwmax⟩ (pack_injective hbuf)

end Sys2Proof.Machine

/-! PROOF. Non-interference: bits 7:6 of `BUF` do not reach the pins (10_state.md R38), and the writer
does not reach the drive (60_exceptions.md section 5). -/

namespace Sys2Proof.Machine

/-! ## The pad bits -/

/-- `drive` reads the low six bits of the selected byte alone. -/
theorem drive_bp_congr (policy : SelEvenPolicy) (p : BitVec 3) {b b' : Buffer}
    (h : ∀ k : Fin 4, (b.get k).extractLsb' 0 6 = (b'.get k).extractLsb' 0 6) :
    (drive policy p b).bp = (drive policy p b').bp := by
  have hbyte : (readBuf b (select p)).extractLsb' 0 6 = (readBuf b' (select p)).extractLsb' 0 6 :=
    h _
  rw [drive_bp, drive_bp, hbyte]

/-- States that differ in pad bits at most advance to such states. -/
theorem PadEquiv.advanced {s t : State} (h : PadEquiv s t) : PadEquiv (advanced s) (advanced t) := by
  obtain ⟨hbuf, hphase, -, -, -, -, hrefusal, hinputs, hparams⟩ := h
  obtain ⟨hbpDir, hselDir, hsel, hbp⟩ := advanced_outputs s
  obtain ⟨hbpDir', hselDir', hsel', hbp'⟩ := advanced_outputs t
  refine ⟨hbuf, congrArg nextPhase hphase, ?_, hbpDir.trans hbpDir'.symm, ?_,
    hselDir.trans hselDir'.symm, hrefusal, hinputs, hparams⟩
  · rw [hbp, hbp', drive_bp_congr _ _ hbuf, hphase, hparams]
  · rw [hsel, hsel', hphase, hparams]

/-- States that differ in pad bits at most still do after a command word: an assigned one writes both
buffers alike, a reserved one neither. -/
theorem PadEquiv.command {s t : State} (h : PadEquiv s t) (w : CommandWord) :
    PadEquiv (performed (.command w) s) (performed (.command w) t) := by
  obtain ⟨hbuf, hphase, hbp, hbpDir, hsel, hselDir, hrefusal, hinputs, hparams⟩ := h
  by_cases hw : Assigned w
  · obtain ⟨g, hg⟩ := bufferAfterWord_eq_pack hw s.params
    rw [performed_command hw, performed_command hw, ← hparams, hg, hg]
    exact ⟨fun _ => rfl, hphase, hbp, hbpDir, hsel, hselDir, hrefusal, hinputs, hparams⟩
  · rw [performed_reserved hw, performed_reserved hw]
    exact ⟨hbuf, hphase, hbp, hbpDir, hsel, hselDir, rfl, hinputs, hparams⟩

/-- States that differ in pad bits at most still do after any event. -/
theorem PadEquiv.performed {s t : State} (h : PadEquiv s t) (e : Event) :
    PadEquiv (performed e s) (performed e t) := by
  cases e with
  | tick => exact h.advanced
  | command w => exact h.command w

/-- The relation does not look at the pending events, but for their being the same. -/
theorem PadEquiv.setInputs {s t : State} (h : PadEquiv s t) (es : List Event) :
    PadEquiv (setInputs es s) (setInputs es t) := by
  obtain ⟨hbuf, hphase, hbp, hbpDir, hsel, hselDir, hrefusal, -, hparams⟩ := h
  exact ⟨hbuf, hphase, hbp, hbpDir, hsel, hselDir, hrefusal, rfl, hparams⟩

/-- States that differ in pad bits at most have the same events pending. -/
theorem PadEquiv.inputs_eq {s t : State} (h : PadEquiv s t) : s.inputs = t.inputs := by
  obtain ⟨-, -, -, -, -, -, -, hinputs, -⟩ := h
  exact hinputs

/-- States that differ in pad bits at most step to such states. -/
theorem PadEquiv.step {s t : State} (h : PadEquiv s t) :
    ∃ s' t', step s = .next s' ∧ step t = .next t' ∧ PadEquiv s' t' := by
  cases hs : s.inputs with
  | nil => exact ⟨s, t, step_of_inputs_nil hs, step_of_inputs_nil (h.inputs_eq ▸ hs), h⟩
  | cons e es =>
    exact ⟨_, _, step_of_inputs_cons hs, step_of_inputs_cons (h.inputs_eq ▸ hs),
      (h.performed e).setInputs es⟩

/-- States that differ in pad bits at most run to such states. -/
theorem PadEquiv.run {s t : State} (h : PadEquiv s t) (n : Nat) :
    ∃ s' t', Host.Core.run Sys2Proof.core n s = .next s' ∧
      Host.Core.run Sys2Proof.core n t = .next t' ∧ PadEquiv s' t' := by
  induction n generalizing s t with
  | zero => exact ⟨s, t, rfl, rfl, h⟩
  | succ n ih =>
    obtain ⟨s', t', hs, ht, h'⟩ := h.step
    rw [run_succ hs, run_succ ht]
    exact ih h'

/-- States that differ in pad bits at most show the same pins. -/
theorem PadEquiv.pins_eq {s t : State} (h : PadEquiv s t) : pins s = pins t := by
  obtain ⟨-, -, hbp, hbpDir, hsel, hselDir, -, -, -⟩ := h
  exact pins_eq_of_outputs_eq hbp hbpDir hsel hselDir

/-- Settles O47. -/
theorem padBitsNeverReachThePins : Obligations.PadBitsNeverReachThePins := by
  intro n s t h
  obtain ⟨s', t', hs, ht, h'⟩ := h.run n
  exact ⟨s', t', hs, ht, h', h'.pins_eq⟩

/-! ## The drive -/

/-- Equal drive sides are so the other way round. -/
theorem DriveEquiv.symm {s t : State} (h : DriveEquiv s t) : DriveEquiv t s := by
  obtain ⟨hphase, hbpDir, hsel, hselDir, hparams⟩ := h
  exact ⟨hphase.symm, hbpDir.symm, hsel.symm, hselDir.symm, hparams.symm⟩

/-- Equal drive sides chain. -/
theorem DriveEquiv.trans {s t u : State} (h : DriveEquiv s t) (h' : DriveEquiv t u) :
    DriveEquiv s u := by
  obtain ⟨hphase, hbpDir, hsel, hselDir, hparams⟩ := h
  obtain ⟨hphase', hbpDir', hsel', hselDir', hparams'⟩ := h'
  exact ⟨hphase.trans hphase', hbpDir.trans hbpDir', hsel.trans hsel', hselDir.trans hselDir',
    hparams.trans hparams'⟩

/-- A tick keeps drive sides equal. -/
theorem DriveEquiv.advanced {s t : State} (h : DriveEquiv s t) :
    DriveEquiv (advanced s) (advanced t) := by
  obtain ⟨hphase, -, -, -, hparams⟩ := h
  obtain ⟨hbpDir, hselDir, hsel, -⟩ := advanced_outputs s
  obtain ⟨hbpDir', hselDir', hsel', -⟩ := advanced_outputs t
  refine ⟨congrArg nextPhase hphase, hbpDir.trans hbpDir'.symm, ?_, hselDir.trans hselDir'.symm,
    hparams⟩
  rw [hsel, hsel', hphase, hparams]

/-- A command word does not touch the drive side. -/
theorem driveEquiv_performed_command (w : CommandWord) (s : State) :
    DriveEquiv (performed (.command w) s) s := by
  obtain ⟨-, hbpDir, hsel, hselDir⟩ := performed_command_outputs w s
  obtain ⟨hparams, -, -⟩ := performed_frame (.command w) s
  exact ⟨performed_command_phase w s, hbpDir, hsel, hselDir, hparams⟩

/-- An interleaving drives as its ticks alone do. -/
theorem Interleaves.driveEquiv_ticks {n : Nat} {ws : List CommandWord} {es : List Event}
    (hint : Interleaves n ws es) {s t : State} (h : DriveEquiv s t) :
    DriveEquiv (performedAll es s) (performedAll (List.replicate n .tick) t) := by
  induction hint generalizing s t with
  | done => exact h
  | tick _ ih => exact ih h.advanced
  | command w _ ih => exact ih ((driveEquiv_performed_command w s).trans h)

/-- Settles O48: both executions drive as the same ticks alone do. -/
theorem writerCannotDisturbTheDrive : Obligations.WriterCannotDisturbTheDrive := by
  intro n ws ws' es es' s t hint hint' _ _ h
  have hs := hint.driveEquiv_ticks h
  have ht := hint'.driveEquiv_ticks (h.symm.trans h)
  exact ⟨_, _, runEvents_eq es s, runEvents_eq es' t, hs.trans ht.symm⟩

end Sys2Proof.Machine
